-- ==== Sys2Proof/Word.lean ====
section
/-! DEFINITION. The block's word types (R9, R20) and the four words of one host command. -/

namespace Sys2Proof

/-- A 32-bit word: `CMD`, `A`, `B`, `C`, `RES`, an FXP raw value, a Manchester pattern, an observer identity,
a fade time (R9, R20). -/
abbrev Word := BitVec 32

/-- An 8-bit value: `STAT`, `FAULT.CAUSE`, an opcode, a notified lamp state (R9, R23, R26). -/
abbrev Byte := BitVec 8

/-- A logical (DALI-domain) level, `LVL_W` = 16 bits (R9, R18). -/
abbrev Level := BitVec 16

/-- An engine-domain value, `NAT_W` = `COL_W` = 12 bits: a native level or one colour channel (R9, R18). -/
abbrev Native := BitVec 12

/-- What the host supplies with one command (R20, R21): the command word and three operand words. -/
structure Command where
  cmd : Word
  a : Word
  b : Word
  c : Word
deriving DecidableEq, Repr

end Sys2Proof
end

