-- ==== Sys2Proof/Syntax.lean ====
section
/-! DEFINITION. The 29 commands of R73 (every row of spec/opcode_table.json), each with the operand fields R74
gives it, at the field's width. The block has no other operand form and no immediates (R71, R75). -/

namespace Sys2Proof

inductive Instr where
  -- FXP, R100 to R116: raw values and one native integer
  | fxfromint (n : Word)
  | fxtoint (v : Word)
  | fxadd (a b : Word)
  | fxsub (a b : Word)
  | fxmul (a b : Word)
  | fxdiv (a b : Word)
  | fxeq (a b : Word)
  | fxne (a b : Word)
  | fxlt (a b : Word)
  | fxle (a b : Word)
  | fxgt (a b : Word)
  | fxge (a b : Word)
  -- MAN, R133 to R141: payloads and patterns
  | menc8 (p : BitVec 8)
  | menc8i (p : BitVec 8)
  | menc16 (p : BitVec 16)
  | menc16i (p : BitVec 16)
  | mdec8 (p : BitVec 16)
  | mdec16 (p : BitVec 32)
  -- LAMP, R160 to R174
  | lsetlevel (l : Level) (t : Word)
  | lgetlevel
  | lisfading
  | labort
  | lwaitfade
  | lsetcolor (r g b : Native) (t : Word)
  | lregister (id : Word)
  | lunregister (id : Word)
  | ld2n (v : Level)
  | ln2d (d : BitVec 16)
  | lteardown
deriving DecidableEq, Repr

end Sys2Proof
end

