-- ==== Sys2Proof/WellFormed.lean ====
section
/-! DEFINITION. What a well-formed command is (R74, R79). The operand fields of each opcode as a table, the
assembler's check of one line against it, and a well-formed instruction as one whose line passes the check. The
widths of `Instr`'s operands are the fields' widths, so every term of `Instr` passes (Laws/PerInstr.lean); a line
with bare integers may not. -/

namespace Sys2Proof

/-- The three operand words (R20). -/
inductive OperandWord where
  | a | b | c
deriving DecidableEq, Repr

/-- One row of the table of R74: bits `hi` down to `lo` of an operand word; `signed` where it is read as s32. -/
structure Field where
  word : OperandWord
  hi : Nat
  lo : Nat
  signed : Bool
deriving DecidableEq, Repr

def Field.width (f : Field) : Nat := f.hi - f.lo + 1

namespace Fields

def aSigned : Field := ⟨.a, 31, 0, true⟩
def bSigned : Field := ⟨.b, 31, 0, true⟩
def aWord : Field := ⟨.a, 31, 0, false⟩
def bWord : Field := ⟨.b, 31, 0, false⟩
def cWord : Field := ⟨.c, 31, 0, false⟩
def aHalf : Field := ⟨.a, 15, 0, false⟩
def aByte : Field := ⟨.a, 7, 0, false⟩
def aRed : Field := ⟨.a, 11, 0, false⟩
def aGreen : Field := ⟨.a, 27, 16, false⟩
def bBlue : Field := ⟨.b, 11, 0, false⟩

end Fields

open Fields in
/-- R74: the operand fields of each opcode of R73, in the order the assembler takes them (R79); `none` for an
opcode that is no row of R73. -/
def fieldsOf (opc : Byte) : Option (List Field) :=
  match opc.toNat with
  | 0x01 => some [aSigned]
  | 0x02 => some [aSigned]
  | 0x03 => some [aSigned, bSigned]
  | 0x04 => some [aSigned, bSigned]
  | 0x05 => some [aSigned, bSigned]
  | 0x06 => some [aSigned, bSigned]
  | 0x08 => some [aSigned, bSigned]
  | 0x09 => some [aSigned, bSigned]
  | 0x0A => some [aSigned, bSigned]
  | 0x0B => some [aSigned, bSigned]
  | 0x0C => some [aSigned, bSigned]
  | 0x0D => some [aSigned, bSigned]
  | 0x20 => some [aByte]
  | 0x21 => some [aByte]
  | 0x22 => some [aHalf]
  | 0x23 => some [aHalf]
  | 0x24 => some [aHalf]
  | 0x26 => some [aWord]
  | 0x40 => some [aHalf, bWord]
  | 0x41 => some []
  | 0x42 => some []
  | 0x43 => some []
  | 0x44 => some []
  | 0x45 => some [aRed, aGreen, bBlue, cWord]
  | 0x46 => some [aWord]
  | 0x47 => some [aWord]
  | 0x48 => some [aHalf]
  | 0x49 => some [aHalf]
  | 0x4F => some []
  | _ => none

/-- One line of R79's assembly language, after its text is read: the mnemonic as its opcode (R73 pairs the two one
to one) and the operands as integers (log 16). -/
structure AsmLine where
  opc : Byte
  operands : List Int
deriving DecidableEq, Repr

/-- R79: an operand fits its field. A field read as s32 takes negative literals and hex patterns alike. -/
def Field.fits (f : Field) (v : Int) : Bool :=
  if f.signed then decide (-2147483648 ≤ v ∧ v < 4294967296)
  else decide (0 ≤ v ∧ v < ((Nat.pow 2 f.width : Nat) : Int))

/-- As many operands as fields, each one fitting. -/
def fitAll : List Field → List Int → Bool
  | [], [] => true
  | f :: fs, v :: vs => f.fits v && fitAll fs vs
  | _, _ => false

/-- R79: the line names a command of R73, and its operands are those of R74 and fit. -/
def AsmLine.wellFormed (l : AsmLine) : Bool :=
  match fieldsOf l.opc with
  | some fs => fitAll fs l.operands
  | none => false

/-- The line that spells an instruction (R79). -/
def Instr.line : Instr → AsmLine
  | .fxfromint n => ⟨0x01#8, [n.toInt]⟩
  | .fxtoint v => ⟨0x02#8, [v.toInt]⟩
  | .fxadd a b => ⟨0x03#8, [a.toInt, b.toInt]⟩
  | .fxsub a b => ⟨0x04#8, [a.toInt, b.toInt]⟩
  | .fxmul a b => ⟨0x05#8, [a.toInt, b.toInt]⟩
  | .fxdiv a b => ⟨0x06#8, [a.toInt, b.toInt]⟩
  | .fxeq a b => ⟨0x08#8, [a.toInt, b.toInt]⟩
  | .fxne a b => ⟨0x09#8, [a.toInt, b.toInt]⟩
  | .fxlt a b => ⟨0x0A#8, [a.toInt, b.toInt]⟩
  | .fxle a b => ⟨0x0B#8, [a.toInt, b.toInt]⟩
  | .fxgt a b => ⟨0x0C#8, [a.toInt, b.toInt]⟩
  | .fxge a b => ⟨0x0D#8, [a.toInt, b.toInt]⟩
  | .menc8 p => ⟨0x20#8, [(p.toNat : Int)]⟩
  | .menc8i p => ⟨0x21#8, [(p.toNat : Int)]⟩
  | .menc16 p => ⟨0x22#8, [(p.toNat : Int)]⟩
  | .menc16i p => ⟨0x23#8, [(p.toNat : Int)]⟩
  | .mdec8 p => ⟨0x24#8, [(p.toNat : Int)]⟩
  | .mdec16 p => ⟨0x26#8, [(p.toNat : Int)]⟩
  | .lsetlevel l t => ⟨0x40#8, [(l.toNat : Int), (t.toNat : Int)]⟩
  | .lgetlevel => ⟨0x41#8, []⟩
  | .lisfading => ⟨0x42#8, []⟩
  | .labort => ⟨0x43#8, []⟩
  | .lwaitfade => ⟨0x44#8, []⟩
  | .lsetcolor r g b t => ⟨0x45#8, [(r.toNat : Int), (g.toNat : Int), (b.toNat : Int), (t.toNat : Int)]⟩
  | .lregister id => ⟨0x46#8, [(id.toNat : Int)]⟩
  | .lunregister id => ⟨0x47#8, [(id.toNat : Int)]⟩
  | .ld2n v => ⟨0x48#8, [(v.toNat : Int)]⟩
  | .ln2d d => ⟨0x49#8, [(d.toNat : Int)]⟩
  | .lteardown => ⟨0x4F#8, []⟩

/-- An instruction is well formed when the line that spells it is: its opcode is a row of R73 and its operands are
the fields R74 gives it. -/
def Instr.wellFormed (i : Instr) : Bool := i.line.wellFormed

end Sys2Proof
end

