-- ==== Sys2Proof/Decode.lean ====
section
/-! DEFINITION. The decoder (R70 to R77), total on any four words and rejecting by name; after it the encoder, the
assembler of R79 and the pseudo-instructions of R80. -/

namespace Sys2Proof

/-- Why a command word is illegal (R77). -/
inductive Rejection where
  /-- `CMD[31:8] != 0` (R70) -/
  | reservedBits
  /-- `OPC` is no row of R73 -/
  | reservedOpcode
deriving DecidableEq, Repr

/-- Bits `lo + len - 1` down to `lo` of a word, as an unsigned field (R11, R74). -/
def fieldAt (w : Word) (lo len : Nat) : BitVec len := w.extractLsb' lo len

/-- `OPC = CMD[7:0]` (R70). -/
def opcField (cmd : Word) : Byte := fieldAt cmd 0 8

/-- `RSV = CMD[31:8]` (R70). -/
def rsvField (cmd : Word) : BitVec 24 := fieldAt cmd 8 24

/-- R73 and R74: the instruction of an opcode, its operands cut from the operand words; bits outside the fields are
ignored. -/
def decodeOpcode (opc : Byte) (a b c : Word) : Option Instr :=
  match opc.toNat with
  | 0x01 => some (.fxfromint a)
  | 0x02 => some (.fxtoint a)
  | 0x03 => some (.fxadd a b)
  | 0x04 => some (.fxsub a b)
  | 0x05 => some (.fxmul a b)
  | 0x06 => some (.fxdiv a b)
  | 0x08 => some (.fxeq a b)
  | 0x09 => some (.fxne a b)
  | 0x0A => some (.fxlt a b)
  | 0x0B => some (.fxle a b)
  | 0x0C => some (.fxgt a b)
  | 0x0D => some (.fxge a b)
  | 0x20 => some (.menc8 (fieldAt a 0 8))
  | 0x21 => some (.menc8i (fieldAt a 0 8))
  | 0x22 => some (.menc16 (fieldAt a 0 16))
  | 0x23 => some (.menc16i (fieldAt a 0 16))
  | 0x24 => some (.mdec8 (fieldAt a 0 16))
  | 0x26 => some (.mdec16 a)
  | 0x40 => some (.lsetlevel (fieldAt a 0 16) b)
  | 0x41 => some .lgetlevel
  | 0x42 => some .lisfading
  | 0x43 => some .labort
  | 0x44 => some .lwaitfade
  | 0x45 => some (.lsetcolor (fieldAt a 0 12) (fieldAt a 16 12) (fieldAt b 0 12) c)
  | 0x46 => some (.lregister a)
  | 0x47 => some (.lunregister a)
  | 0x48 => some (.ld2n (fieldAt a 0 16))
  | 0x49 => some (.ln2d (fieldAt a 0 16))
  | 0x4F => some .lteardown
  | _ => none

/-- The decoder: one format, one length (R71); a word is illegal by R77 or a row of R73. -/
def decode (k : Command) : Except Rejection Instr :=
  if rsvField k.cmd = 0#24 then
    match decodeOpcode (opcField k.cmd) k.a k.b k.c with
    | some i => .ok i
    | none => .error .reservedOpcode
  else .error .reservedBits

/-- The command word of an opcode: `OPC` below a zero `RSV` (R70). -/
def opcodeWord (opc : Byte) : Word := opc.setWidth 32

/-- Encode (R70, R73, R74, R79): each operand in its field, every other bit of `A`, `B`, `C` at 0. -/
def encode : Instr → Command
  | .fxfromint n => ⟨opcodeWord 0x01#8, n, 0#32, 0#32⟩
  | .fxtoint v => ⟨opcodeWord 0x02#8, v, 0#32, 0#32⟩
  | .fxadd a b => ⟨opcodeWord 0x03#8, a, b, 0#32⟩
  | .fxsub a b => ⟨opcodeWord 0x04#8, a, b, 0#32⟩
  | .fxmul a b => ⟨opcodeWord 0x05#8, a, b, 0#32⟩
  | .fxdiv a b => ⟨opcodeWord 0x06#8, a, b, 0#32⟩
  | .fxeq a b => ⟨opcodeWord 0x08#8, a, b, 0#32⟩
  | .fxne a b => ⟨opcodeWord 0x09#8, a, b, 0#32⟩
  | .fxlt a b => ⟨opcodeWord 0x0A#8, a, b, 0#32⟩
  | .fxle a b => ⟨opcodeWord 0x0B#8, a, b, 0#32⟩
  | .fxgt a b => ⟨opcodeWord 0x0C#8, a, b, 0#32⟩
  | .fxge a b => ⟨opcodeWord 0x0D#8, a, b, 0#32⟩
  | .menc8 p => ⟨opcodeWord 0x20#8, p.setWidth 32, 0#32, 0#32⟩
  | .menc8i p => ⟨opcodeWord 0x21#8, p.setWidth 32, 0#32, 0#32⟩
  | .menc16 p => ⟨opcodeWord 0x22#8, p.setWidth 32, 0#32, 0#32⟩
  | .menc16i p => ⟨opcodeWord 0x23#8, p.setWidth 32, 0#32, 0#32⟩
  | .mdec8 p => ⟨opcodeWord 0x24#8, p.setWidth 32, 0#32, 0#32⟩
  | .mdec16 p => ⟨opcodeWord 0x26#8, p, 0#32, 0#32⟩
  | .lsetlevel l t => ⟨opcodeWord 0x40#8, l.setWidth 32, t, 0#32⟩
  | .lgetlevel => ⟨opcodeWord 0x41#8, 0#32, 0#32, 0#32⟩
  | .lisfading => ⟨opcodeWord 0x42#8, 0#32, 0#32, 0#32⟩
  | .labort => ⟨opcodeWord 0x43#8, 0#32, 0#32, 0#32⟩
  | .lwaitfade => ⟨opcodeWord 0x44#8, 0#32, 0#32, 0#32⟩
  | .lsetcolor r g b t =>
    ⟨opcodeWord 0x45#8, r.setWidth 32 ||| (g.setWidth 32 <<< 16), b.setWidth 32, t⟩
  | .lregister id => ⟨opcodeWord 0x46#8, id, 0#32, 0#32⟩
  | .lunregister id => ⟨opcodeWord 0x47#8, id, 0#32, 0#32⟩
  | .ld2n v => ⟨opcodeWord 0x48#8, v.setWidth 32, 0#32, 0#32⟩
  | .ln2d d => ⟨opcodeWord 0x49#8, d.setWidth 32, 0#32, 0#32⟩
  | .lteardown => ⟨opcodeWord 0x4F#8, 0#32, 0#32, 0#32⟩

/-- The whole command word of an instruction, which a fault records (R201). It is the word the host issued, since a
legal word has `RSV` 0 (log 20). -/
def commandWord (i : Instr) : Word := (encode i).cmd

/-- `OPC[7:5]` = 010: the instruction belongs to the LAMP unit (R72). -/
def Instr.isLamp (i : Instr) : Bool := fieldAt (commandWord i) 5 3 == 0b010#3

/-! ## The opcode table's words -/

/-- The command whose bits, numbered as the opcode table numbers them, are the low `nbits` bits of `w`: `CMD` is
bits 31..0, then `A`, `B`, `C`. The block moves whole words, so no byte order enters (R53). -/
def commandOfBits (nbits w : Nat) : Command :=
  let v := w % Nat.pow 2 nbits
  ⟨BitVec.ofNat 32 v, BitVec.ofNat 32 (v >>> 32), BitVec.ofNat 32 (v >>> 64), BitVec.ofNat 32 (v >>> 96)⟩

/-- The instruction the decoder reads from an opcode-table word. -/
def decodeTableWord (nbits w : Nat) : Option Instr :=
  match decode (commandOfBits nbits w) with
  | .ok i => some i
  | .error _ => none

/-! ## The assembler (R79) and its pseudo-instructions (R80) -/

/-- Put an operand into its field of a command whose field is 0 (R79): `wrap32(v)` for a negative literal. -/
def placeOperand (k : Command) (f : Field) (v : Int) : Command :=
  let bits : Word := ((BitVec.ofInt f.width v).setWidth 32) <<< f.lo
  match f.word with
  | .a => { k with a := k.a ||| bits }
  | .b => { k with b := k.b ||| bits }
  | .c => { k with c := k.c ||| bits }

def placeAll (k : Command) : List Field → List Int → Command
  | f :: fs, v :: vs => placeAll (placeOperand k f v) fs vs
  | _, _ => k

/-- R79: the assembler rejects a line whose operands do not fit their fields, and otherwise puts each operand into
its field and leaves every other bit at 0. -/
def assemble (l : AsmLine) : Option Command :=
  match fieldsOf l.opc with
  | some fs =>
    if l.wellFormed then some (placeAll ⟨opcodeWord l.opc, 0#32, 0#32, 0#32⟩ fs l.operands) else none
  | none => none

/-- `wrap32(p XOR 0xFFFFFFFF)` as an unsigned literal (R80), `p` taken modulo 2^32. DESIGN CHOICE (log 21): R79 and
R80 do not say whether the operand of `MDEC8I` and `MDEC16I` is itself checked; any integer is taken, negative or
beyond 32 bits, and only the complemented word is checked against its field. -/
def complement32 (p : Int) : Int := ((BitVec.ofInt 32 p ^^^ 0xFFFFFFFF#32).toNat : Int)

/-- `FXNEG a` is `FXSUB 0, a` (R80). -/
def pseudoFxneg (a : Int) : AsmLine := ⟨0x04#8, [0, a]⟩

/-- `MDEC8I p` is `MDEC8 wrap32(p XOR 0xFFFFFFFF)` (R80); the operand must then fit `A[15:0]` (R79, log 16), and `p` itself
is not checked (log 21). -/
def pseudoMdec8i (p : Int) : AsmLine := ⟨0x24#8, [complement32 p]⟩

/-- `MDEC16I p` is `MDEC16 wrap32(p XOR 0xFFFFFFFF)` (R80); `p` itself is not checked (log 21). -/
def pseudoMdec16i (p : Int) : AsmLine := ⟨0x26#8, [complement32 p]⟩

/-- `LSNAP l` is `LSETLEVEL l, 0` (R80). -/
def pseudoLsnap (l : Int) : AsmLine := ⟨0x40#8, [l, 0]⟩

end Sys2Proof
end

