-- ==== Sys2Proof/Config.lean ====
section
/-! DEFINITION. The implementation parameters of R9: the values this hardware takes, and the OPEN ones and the
values the spec leaves unspecified as constants WITHOUT A BODY, so that no proof can depend on their value. -/

namespace Sys2Proof.Config

/-- `N_CLIENTS`: observer slots (R9, R10). The slot rules hold for any number of slots (log 11). -/
def nClients : Nat := 1

/-- `COL_FULL`: the reset value of each colour channel (R9, R32). -/
def colFull : Native := 4095#12

/-- `MAN_INVALID`: the decode marker (R9, R139). -/
def manInvalid : BitVec 16 := 0xFFFF#16

/-- `DIV_MIXED_SIGN`: how FXDIV rounds when the signs of its operands differ (R9, R105). -/
inductive DivMixedSign where
  /-- round to nearest, ties away from zero -/
  | halfAway
  /-- the source's formula with truncating division, the rejected alternative -/
  | literal
deriving DecidableEq, Repr

/-- This hardware takes `HALF_AWAY` (R9, decision D8; log 10). -/
def divMixedSign : DivMixedSign := .halfAway

/-- `FADE_STEPS(t) - 1`, OPEN (R220, log 7): nothing is known of it. -/
opaque fadeStepsLessOne : Word → Nat

/-- `FADE_STEPS(t)`: the number of engine time steps a fade of time `t` takes, "at least 1" (R220, log 7). -/
def fadeSteps (t : Word) : Nat := fadeStepsLessOne t + 1

/-- `COLOR_FADE_SETS_FADING`, OPEN: whether `setColor` with a fade time sets the fading flag (R9, R218, log 8). -/
opaque colorFadeSetsFading : Bool

/-- `FADE_UNIT`, OPEN: the real-time length of one fade-time unit; no rule reads it (R9, R223, log 9). -/
opaque fadeUnit : Nat

/-- The ports of the command interface that a host bus could carry (R20, R28, R51). -/
inductive Port where
  | cmd | a | b | c | res | stat | faultCause | faultCmd | lifecycle
deriving DecidableEq, Repr

/-- `BUS_MAP`, OPEN: where a port sits on a host bus; no rule reads it (R9, R51, log 9). -/
opaque busMap : Port → Nat

/-- `ENGINE_LIVE_LEVEL`, the level an engine step draws during a fade (R220), for a step no listed turn brings: a free
value, drawn at the `n`th draw the machine makes (log 5). -/
opaque liveLevel : Nat → Native

/-! The engine's fields after `Engine.disable()` are unspecified (R216, S2 of 93_implementation_defined.md).
Each is a free value, drawn at the `n`th draw the machine makes (log 6). -/

opaque disabledLevel : Nat → Native
opaque disabledFading : Nat → Bool
opaque disabledFrom : Nat → Native
opaque disabledTarget : Nat → Native
opaque disabledDuration : Nat → Word
opaque disabledElapsed : Nat → Nat
opaque disabledRed : Nat → Native
opaque disabledGreen : Nat → Native
opaque disabledBlue : Nat → Native

end Sys2Proof.Config
end

