-- ==== Sys2Proof/Machine/State.lean ====
section
/-! DEFINITION. The whole state (R35, R38, R39, R45), plain data: the block's registers, the engine's abstract
state, the notification history, the host's own state, and which agent moves next. Every field and its reset value
is listed in INVENTORY.md under State. -/

namespace Sys2Proof.Machine

/-- `LIFECYCLE`, one bit (R27). -/
inductive Lifecycle where
  /-- 0: constructed and usable -/
  | active
  /-- 1: destroyed -/
  | tornDown
deriving DecidableEq, Repr

/-- One observer slot (R33). -/
structure Slot where
  valid : Bool
  id : Word
deriving DecidableEq, Repr

/-- An empty slot as reset leaves it (R33, R40). -/
def Slot.empty : Slot := ⟨false, 0#32⟩

/-- `ENG.COLOR`, the last colour passed to the engine (R35). -/
structure Rgb where
  r : Native
  g : Native
  b : Native
deriving DecidableEq, Repr

/-- The engine's abstract state (R35). -/
structure Engine where
  enabled : Bool
  level : Native
  fading : Bool
  origin : Native   -- ENG.FROM
  target : Native
  duration : Word
  elapsed : Nat
  color : Rgb
deriving DecidableEq, Repr

/-- One record of `NOTIFY` (R38). -/
structure Notice where
  id : Word
  state : Byte
deriving DecidableEq, Repr

/-- One agent's coming step (R45), with what that agent brings to it (log 1). -/
inductive Turn where
  /-- the host issues the command at its index, or tries it again (R76, R240) -/
  | host
  /-- an engine time step; `live` is the level the engine draws if the fade goes on (R220, log 5) -/
  | engineStep (live : Native)
  /-- an engine state-change event with lamp state `s` (R211, R222) -/
  | engineEvent (s : Byte)
  /-- reset (R230) -/
  | reset
deriving DecidableEq, Repr

structure State where
  /-- `RES` (R22) -/
  res : Word
  /-- `STAT` (R23) -/
  stat : Byte
  /-- `FAULT.CAUSE` (R26) -/
  faultCause : Byte
  /-- `FAULT.CMD` (R26) -/
  faultCmd : Word
  /-- `LIFECYCLE` (R27) -/
  lifecycle : Lifecycle
  /-- `mLevel`, the commanded logical level (R30, R31) -/
  mLevel : Level
  /-- `COL_R` (R32) -/
  colR : Native
  /-- `COL_G` (R32) -/
  colG : Native
  /-- `COL_B` (R32) -/
  colB : Native
  /-- `SLOT[0 .. N_CLIENTS-1]` (R33, log 11) -/
  slots : List Slot
  /-- the engine (R35) -/
  eng : Engine
  /-- `NOTIFY`, oldest first (R38) -/
  notify : List Notice
  /-- the host's commands from its index on; the first is the command at the index (R21, R24, log 2) -/
  pending : List Command
  /-- the command at the index has been issued and is holding (R16, R230, log 3) -/
  holding : Bool
  /-- the host's command index `k` (R24) -/
  index : Nat
  /-- the agents' coming steps, first to come first; with none listed the engine moves while its fade runs, and else
  the host (R45, R220, log 1, log 17) -/
  turns : List Turn
  /-- how many times the machine has drawn free values (log 5, log 6) -/
  draws : Nat
deriving DecidableEq, Repr

/-- The reasons a step could stop the machine. There is none: the block's one kind of exception is the FAULT record,
and a command that raises it ends in a next state (R200, R201, log 13). Safe and unsafe do not arise. -/
inductive Fault
deriving DecidableEq, Repr

/-- The reasons an instruction has no meaning. -/
inductive Refusal where
  /-- Raised by an arm of `exec` whose instruction has no meaning yet; no arm raises it. Safe: the machine stops where
  the hardware would go on. -/
  | notModelled (mnemonic : String)
deriving DecidableEq, Repr

/-- How a step ends. -/
abbrev Result := Host.Outcome State Fault Refusal

/-- The engine right after reset (R40). -/
def Engine.reset : Engine :=
  { enabled := true, level := 0#12, fading := false, origin := 0#12, target := 0#12, duration := 0#32, elapsed := 0,
    color := ⟨Config.colFull, Config.colFull, Config.colFull⟩ }

/-- The machine right after reset (R40, R231). No command waits and no step is scheduled (log 1, log 2); `NOTIFY` is
empty, as nothing has been sent (log 12). -/
def State.reset : State :=
  { res := 0#32, stat := 0#8, faultCause := 0#8, faultCmd := 0#32, lifecycle := .active, mLevel := 0#16,
    colR := Config.colFull, colG := Config.colFull, colB := Config.colFull,
    slots := List.replicate Config.nClients Slot.empty, eng := Engine.reset, notify := [],
    pending := [], holding := false, index := 0, turns := [], draws := 0 }

end Sys2Proof.Machine
end

