-- ==== Sys2Proof/Machine/Engine.lean ====
section
/-! DEFINITION. The external dimming engine's operations (R15) and its time step, on its abstract state (R215 to
R221). -/

namespace Sys2Proof.Machine

/-- `Engine.enable()` (R215). -/
def Engine.enable (e : Engine) : Engine := { e with enabled := true }

/-- `Engine.disable()` (R216): the engine is off, and its other fields are unspecified: the free values of draw `n`
(log 6). -/
def Engine.disable (n : Nat) (_e : Engine) : Engine :=
  { enabled := false
    level := Config.disabledLevel n
    fading := Config.disabledFading n
    origin := Config.disabledFrom n
    target := Config.disabledTarget n
    duration := Config.disabledDuration n
    elapsed := Config.disabledElapsed n
    color := ⟨Config.disabledRed n, Config.disabledGreen n, Config.disabledBlue n⟩ }

/-- `Engine.setLevel(l, t)` (R217): a snap for `t = 0`, else a fade from the live level, replacing any fade in
progress. -/
def Engine.setLevel (l : Native) (t : Word) (e : Engine) : Engine :=
  if t = 0#32 then
    { e with level := l, target := l, origin := l, duration := 0#32, elapsed := 0, fading := false }
  else
    { e with origin := e.level, target := l, duration := t, elapsed := 0, fading := true }

/-- The fade a colour fade starts where `COLOR_FADE_SETS_FADING` holds and no fade is in progress (R218): from the
live level to the live level. -/
def Engine.startColorFade (t : Word) (e : Engine) : Engine :=
  { e with origin := e.level, target := e.level, duration := t, elapsed := 0, fading := true }

/-- `Engine.setColor(r, g, b, t)` (R218). The OPEN parameter is `Config.colorFadeSetsFading` (log 8). -/
def Engine.setColor (c : Rgb) (t : Word) (e : Engine) : Engine :=
  let e' := { e with color := c }
  if t ≠ 0#32 ∧ Config.colorFadeSetsFading = true ∧ e.fading = false then e'.startColorFade t else e'

/-- `Engine.isFading()` (R219). -/
def Engine.isFading (e : Engine) : Bool := e.fading

/-- `Engine.getLevel()` (R219). -/
def Engine.getLevel (e : Engine) : Native := e.level

/-- `Engine.abortFading()` (R221). -/
def Engine.abortFading (e : Engine) : Engine :=
  if e.fading then { e with fading := false, target := e.level } else e

/-- The engine's time step is enabled (R220). -/
def Engine.ready (e : Engine) : Bool := e.enabled && e.fading

/-- The engine time step (R220), enabled while the engine is on and fading; otherwise the engine takes no step
(log 15). `live` is the level it draws, `ENGINE_LIVE_LEVEL` (log 5). -/
def Engine.timeStep (live : Native) (e : Engine) : Engine :=
  if e.enabled = true ∧ e.fading = true then
    if Config.fadeSteps e.duration ≤ e.elapsed + 1 then
      { e with elapsed := e.elapsed + 1, level := e.target, fading := false }
    else
      { e with elapsed := e.elapsed + 1, level := live }
  else e

end Sys2Proof.Machine
end

