-- ==== Sys2Proof/Machine/Flags.lean ====
section
/-! DEFINITION. The block has no flags (R25). What stands in their place: the status codes of `STAT` (R23), the
cause codes of `FAULT` (R26, R202), and the word a comparison leaves in `RES` (R110). -/

namespace Sys2Proof.Machine

/-- `OK` (R23). -/
def statOk : Byte := 0x00#8
/-- `CAPACITY` (R23). -/
def statCapacity : Byte := 0x01#8
/-- `NOT_REGISTERED` (R23). -/
def statNotRegistered : Byte := 0x02#8

/-- No fault (R26). -/
def causeNone : Byte := 0x00#8
/-- `ILLEGAL_CMD` (R202). -/
def causeIllegalCmd : Byte := 0x01#8
/-- `DIV_ZERO` (R202). -/
def causeDivZero : Byte := 0x02#8
/-- `LAMP_OFF` (R202). -/
def causeLampOff : Byte := 0x03#8

/-- `zext_32(p ? 1 : 0)` (R110, R162). -/
def boolWord (p : Bool) : Word := if p then 0x00000001#32 else 0x00000000#32

end Sys2Proof.Machine
end

