-- ==== Sys2Proof/Machine/Operands.lean ====
section
/-! DEFINITION. The conversions between words and exact integers (R12). All arithmetic is on integers of unbounded
size; a result is narrowed once, at the end. -/

namespace Sys2Proof.Machine

/-- `s32(v)` (R12). -/
def s32 (v : Word) : Int := v.toInt

/-- `u32(v)` (R12). -/
def u32 (v : Word) : Nat := v.toNat

/-- `wrap32(z)`: the word whose unsigned value is `z mod 2^32` (R12). -/
def wrap32 (z : Int) : Word := BitVec.ofInt 32 z

/-- `zext_32(v)` (R12, R75). -/
def zext32 {w : Nat} (v : BitVec w) : Word := v.setWidth 32

/-- `sext_N(v)` (R12). -/
def sext {w : Nat} (n : Nat) (v : BitVec w) : BitVec n := v.signExtend n

/-- `floor_div(n, d)`: the real quotient rounded down (R12). -/
def floorDiv (n d : Int) : Int := Int.fdiv n d

/-- `trunc_div(n, d)`: the real quotient rounded toward zero (R12). -/
def truncDiv (n d : Int) : Int := Int.tdiv n d

/-- `asr(z, k)` is `floor_div(z, 2^k)` (R12). -/
def asr (z : Int) (k : Nat) : Int := floorDiv z (Int.ofNat (Nat.pow 2 k))

/-- `abs(z)` (R12). -/
def absInt (z : Int) : Int := if z < 0 then -z else z

end Sys2Proof.Machine
end

