-- ==== Sys2Proof/Machine/Ops.lean ====
section
/-! DEFINITION. The operations every meaning is built from: the named updates of State, completing a command,
raising a fault (the block's one exception, R200 to R205), holding, the checks a command passes first (R76, R209),
reset (the only way out of a fault, R203, R205, R230), and what the host may read. -/

namespace Sys2Proof.Machine

/-! ## Named updates -/

def State.setEngine (e : Engine) (s : State) : State := { s with eng := e }

def State.setMLevel (l : Level) (s : State) : State := { s with mLevel := l }

def State.setColour (c : Rgb) (s : State) : State := { s with colR := c.r, colG := c.g, colB := c.b }

def State.setSlots (ss : List Slot) (s : State) : State := { s with slots := ss }

/-! ## How a command ends -/

/-- The host's index moves past the command at it, which leaves the host's list (R24, log 2). -/
def State.retire (s : State) : State :=
  { s with pending := s.pending.tail, holding := false, index := s.index + 1 }

/-- A command completes: it writes `RES` and `STAT` (R22, R23, R76). -/
def State.complete (v : Word) (code : Byte) (s : State) : State :=
  ({ s with res := v, stat := code } : State).retire

/-- `raise Fault(cause)` (R201): `FAULT` is written and nothing else of the block changes; the host's index moves past
the command. -/
def State.raiseFault (cause : Byte) (cmd : Word) (s : State) : State :=
  ({ s with faultCause := cause, faultCmd := cmd } : State).retire

/-- The command takes no step in this state and stays pending (R16, R240). -/
def State.hold (s : State) : State := { s with holding := true }

/-! ## The checks of R76 -/

/-- The block is faulted (R26). -/
def State.faulted (s : State) : Bool := s.faultCause != causeNone

/-- A faulted block performs no command: the command holds until reset (R76, R203). -/
def whenRunning (s : State) (act : State → State) : State :=
  if s.faulted then s.hold else act s

/-- An illegal command word (R77, R206). -/
def illegalCommand (cmd : Word) (s : State) : State :=
  whenRunning s (State.raiseFault causeIllegalCmd cmd)

/-- A command of the pure units FXP and MAN: a result and `STAT` OK, whatever `LIFECYCLE` holds (R63, R96). -/
def pureCommand (v : Word) (s : State) : State :=
  whenRunning s (State.complete v statOk)

/-- A LAMP command: `LAMP_OFF` after teardown, before the command does anything (R76, R156, R175). -/
def lampCommand (i : Instr) (s : State) (act : State → State) : State :=
  whenRunning s fun s =>
    if s.lifecycle = .tornDown then s.raiseFault causeLampOff (commandWord i) else act s

/-! ## Reset -/

/-- Reset discards a holding command, which never completes (R230, log 3); the index does not move (R24, log 4). -/
def State.discardHolding (s : State) : State :=
  { s with pending := if s.holding then s.pending.tail else s.pending, holding := false }

/-- The construction sequence on the engine (R231): enable, full colour at once, level 0 at once. -/
def Engine.construct (e : Engine) : Engine :=
  ((e.enable).setColor ⟨Config.colFull, Config.colFull, Config.colFull⟩ 0#32).setLevel 0#12 0#32

/-- The reset step (R230, R231). `NOTIFY` is kept (R232). -/
def State.resetStep (s : State) : State :=
  { s.discardHolding with
    eng := s.eng.construct
    mLevel := 0#16
    colR := Config.colFull, colG := Config.colFull, colB := Config.colFull
    slots := s.slots.map fun _ => Slot.empty
    res := 0#32, stat := statOk
    faultCause := causeNone, faultCmd := 0#32
    lifecycle := .active }

/-! ## What the host reads -/

/-- `LIFECYCLE` as its one bit (R27). -/
def Lifecycle.bit : Lifecycle → BitVec 1
  | .active => 0#1
  | .tornDown => 1#1

/-- The host reads `RES`, `STAT`, `FAULT` and `LIFECYCLE`, with no side effect (R28, R56), and nothing else. -/
def State.hostRead (s : State) : Config.Port → Option Word
  | .res => some s.res
  | .stat => some (zext32 s.stat)
  | .faultCause => some (zext32 s.faultCause)
  | .faultCmd => some s.faultCmd
  | .lifecycle => some (zext32 s.lifecycle.bit)
  | .cmd => none
  | .a => none
  | .b => none
  | .c => none

/-! ## Placing a command -/

/-- `k` becomes the command at the host's index, not yet issued, and the host's turn comes first (log 14). -/
def State.placeCommand (k : Command) (s : State) : State :=
  { s with pending := k :: s.pending.tail, holding := false, turns := .host :: s.turns }

end Sys2Proof.Machine
end

