-- ==== Sys2Proof/Machine/FixedPoint.lean ====
section
/-! DEFINITION. The FXP family (R90 to R118): Q2.29 arithmetic on exact integers, wrapped at the end (R92). -/

namespace Sys2Proof.Machine

/-- `2^29`, the scale of a raw value (R90). -/
def fxScale : Int := 536870912

/-- `2^28`, half an ULP before the final shift (R101, R104). -/
def fxHalf : Int := 268435456

/-! ## The functions -/

/-- R100. -/
def fxFromInt (n : Word) : Word := wrap32 (s32 n * fxScale)

/-- R101. -/
def fxToInt (v : Word) : Word := wrap32 (floorDiv (s32 v + fxHalf) fxScale)

/-- R102. -/
def fxAdd (a b : Word) : Word := wrap32 (s32 a + s32 b)

/-- R103. -/
def fxSub (a b : Word) : Word := wrap32 (s32 a - s32 b)

/-- R104: the exact product, half an ULP added, shifted down arithmetically. -/
def fxMul (a b : Word) : Word := wrap32 (floorDiv (s32 a * s32 b + fxHalf) fxScale)

/-- The rounded quotient of R105, both branches: `n` is the dividend shifted left 29, `b` the divisor, not 0. -/
def divRound (mode : Config.DivMixedSign) (n b : Int) : Int :=
  match mode with
  | .halfAway =>
    if n = 0 then 0
    else
      let m := floorDiv (absInt n + floorDiv (absInt b) 2) (absInt b)
      if (n < 0) ↔ (b < 0) then m else -m
  | .literal => truncDiv (n + truncDiv b 2) b

/-- R105 for a divisor other than 0. -/
def fxDiv (mode : Config.DivMixedSign) (a b : Word) : Word :=
  wrap32 (divRound mode (s32 a * fxScale) (s32 b))

/-! ## The commands -/

def execFxfromint (n : Word) (s : State) : Result := .next (pureCommand (fxFromInt n) s)

def execFxtoint (v : Word) (s : State) : Result := .next (pureCommand (fxToInt v) s)

def execFxadd (a b : Word) (s : State) : Result := .next (pureCommand (fxAdd a b) s)

def execFxsub (a b : Word) (s : State) : Result := .next (pureCommand (fxSub a b) s)

def execFxmul (a b : Word) (s : State) : Result := .next (pureCommand (fxMul a b) s)

/-- R105: a zero divisor raises `DIV_ZERO` before any effect (R207). -/
def execFxdiv (a b : Word) (s : State) : Result :=
  .next <| whenRunning s fun s =>
    if s32 b = 0 then s.raiseFault causeDivZero (commandWord (.fxdiv a b))
    else s.complete (fxDiv Config.divMixedSign a b) statOk

/-- R111. -/
def execFxeq (a b : Word) (s : State) : Result := .next (pureCommand (boolWord (decide (s32 a = s32 b))) s)

/-- R112. -/
def execFxne (a b : Word) (s : State) : Result := .next (pureCommand (boolWord (decide (s32 a ≠ s32 b))) s)

/-- R113. -/
def execFxlt (a b : Word) (s : State) : Result := .next (pureCommand (boolWord (decide (s32 a < s32 b))) s)

/-- R114. -/
def execFxle (a b : Word) (s : State) : Result := .next (pureCommand (boolWord (decide (s32 a ≤ s32 b))) s)

/-- R115. -/
def execFxgt (a b : Word) (s : State) : Result := .next (pureCommand (boolWord (decide (s32 a > s32 b))) s)

/-- R116. -/
def execFxge (a b : Word) (s : State) : Result := .next (pureCommand (boolWord (decide (s32 a ≥ s32 b))) s)

end Sys2Proof.Machine
end

