-- ==== Sys2Proof/Machine/Lamp.lean ====
section
/-! DEFINITION. The LAMP family (R150 to R177): the domain conversions, the observer slots, the eleven commands. -/

namespace Sys2Proof.Machine

/-! ## Domain conversions -/

/-- `dali2driver(v)` (R152). -/
def dali2driver (v : Level) : Native := BitVec.ofNat 12 (min ((v.toNat * 4096 + 32768) / 65536) 4095)

/-- `driver2dali(d)` for an unsigned value `d` (R153). -/
def driver2dali (d : Nat) : Level := BitVec.ofNat 16 (min ((d * 65536 + 2048) / 4096) 65535)

/-! ## The slot table, for any number of slots (R10) -/

/-- R170: the least empty slot takes the identity; `none` when no slot is empty. -/
def registerSlot (id : Word) : List Slot → Option (List Slot)
  | [] => none
  | x :: xs => if x.valid then (registerSlot id xs).map (x :: ·) else some (⟨true, id⟩ :: xs)

/-- R171: the least valid slot with the identity is emptied; `none` when there is none. -/
def unregisterSlot (id : Word) : List Slot → Option (List Slot)
  | [] => none
  | x :: xs =>
    if x.valid = true ∧ x.id = id then some (⟨false, 0#32⟩ :: xs) else (unregisterSlot id xs).map (x :: ·)

/-! ## The commands -/

/-- R160. -/
def execLsetlevel (l : Level) (t : Word) (s : State) : Result :=
  .next <| lampCommand (.lsetlevel l t) s fun s =>
    ((s.setMLevel l).setEngine (s.eng.setLevel (dali2driver l) t)).complete 0#32 statOk

/-- R161, R151. -/
def execLgetlevel (s : State) : Result :=
  .next <| lampCommand .lgetlevel s fun s =>
    s.complete (zext32 (if s.eng.isFading then driver2dali s.eng.getLevel.toNat else s.mLevel)) statOk

/-- R162. -/
def execLisfading (s : State) : Result :=
  .next <| lampCommand .lisfading s fun s => s.complete (boolWord s.eng.isFading) statOk

/-- R163: the level is read after the engine stopped. -/
def execLabort (s : State) : Result :=
  .next <| lampCommand .labort s fun s =>
    if s.eng.isFading then
      let e := s.eng.abortFading
      ((s.setEngine e).setMLevel (driver2dali e.getLevel.toNat)).complete 0#32 statOk
    else s.complete 0#32 statOk

/-- R164, R240: it holds while the engine fades. -/
def execLwaitfade (s : State) : Result :=
  .next <| lampCommand .lwaitfade s fun s => if s.eng.isFading then s.hold else s.complete 0#32 statOk

/-- R166. -/
def execLsetcolor (r g b : Native) (t : Word) (s : State) : Result :=
  .next <| lampCommand (.lsetcolor r g b t) s fun s =>
    ((s.setColour ⟨r, g, b⟩).setEngine (s.eng.setColor ⟨r, g, b⟩ t)).complete 0#32 statOk

/-- R170: a full table is a status, not a fault, and mutates nothing. -/
def execLregister (id : Word) (s : State) : Result :=
  .next <| lampCommand (.lregister id) s fun s =>
    match registerSlot id s.slots with
    | some ss => (s.setSlots ss).complete 0#32 statOk
    | none => s.complete 0#32 statCapacity

/-- R171. -/
def execLunregister (id : Word) (s : State) : Result :=
  .next <| lampCommand (.lunregister id) s fun s =>
    match unregisterSlot id s.slots with
    | some ss => (s.setSlots ss).complete 0#32 statOk
    | none => s.complete 0#32 statNotRegistered

/-- R172. -/
def execLd2n (v : Level) (s : State) : Result :=
  .next <| lampCommand (.ld2n v) s fun s => s.complete (zext32 (dali2driver v)) statOk

/-- R173. -/
def execLn2d (d : BitVec 16) (s : State) : Result :=
  .next <| lampCommand (.ln2d d) s fun s => s.complete (zext32 (driver2dali d.toNat)) statOk

/-- The engine is disabled, its other fields drawn (log 6), and the LAMP unit torn down (R174, R216). -/
def State.tearDown (s : State) : State :=
  { s with eng := s.eng.disable s.draws, lifecycle := .tornDown, draws := s.draws + 1 }

/-- R174. -/
def execLteardown (s : State) : Result :=
  .next <| lampCommand .lteardown s fun s => s.tearDown.complete 0#32 statOk

end Sys2Proof.Machine
end

