-- ==== Sys2Proof/Machine/Manchester.lean ====
section
/-! DEFINITION. The MAN family (R130 to R145): the Manchester codec's two shared functions and its six commands. -/

namespace Sys2Proof.Machine

/-- The symbol of one source bit after the polarity's exclusive or (R131): `01` for 1, `10` for 0. -/
def manSymbol (bit : Bool) : Word := if bit then 0b01#32 else 0b10#32

/-- The loop of R132 from source bit `i - 1` down to 0: shift the accumulator left 2, OR the symbol in. -/
def encLoop {w : Nat} (p : BitVec w) (inv : Bool) : Nat → Word → Word
  | 0, acc => acc
  | i + 1, acc => encLoop p inv i ((acc <<< 2) ||| manSymbol (p.getLsbD i ^^ inv))

/-- `enc(p, w, inv)` (R132), starting from all ones. -/
def manEnc {w : Nat} (p : BitVec w) (inv : Bool) : Word := encLoop p inv w 0xFFFFFFFF#32

/-- The loop of R139 from symbol `i - 1` down to 0; an illegal symbol ends it with the marker. -/
def decLoop {n : Nat} (p : BitVec n) : Nat → BitVec 16 → BitVec 16
  | 0, out => out
  | i + 1, out =>
    let s : BitVec 2 := p.extractLsb' (2 * i) 2
    if s = 0b10#2 then decLoop p i (out <<< 1)
    else if s = 0b01#2 then decLoop p i ((out <<< 1) + 1#16)
    else Config.manInvalid

/-- `dec(P, w)` (R139). -/
def manDec (w : Nat) {n : Nat} (p : BitVec n) : BitVec 16 := decLoop p w 0#16

/-- R133. -/
def execMenc8 (p : BitVec 8) (s : State) : Result := .next (pureCommand (manEnc p false) s)

/-- R134. -/
def execMenc8i (p : BitVec 8) (s : State) : Result := .next (pureCommand (manEnc p true) s)

/-- R135. -/
def execMenc16 (p : BitVec 16) (s : State) : Result := .next (pureCommand (manEnc p false) s)

/-- R136. -/
def execMenc16i (p : BitVec 16) (s : State) : Result := .next (pureCommand (manEnc p true) s)

/-- R140. -/
def execMdec8 (p : BitVec 16) (s : State) : Result := .next (pureCommand (zext32 (manDec 8 p)) s)

/-- R141. -/
def execMdec16 (p : BitVec 32) (s : State) : Result := .next (pureCommand (zext32 (manDec 16 p)) s)

end Sys2Proof.Machine
end

