-- ==== Sys2Proof/Machine/Dispatch.lean ====
section
/-! DEFINITION. What each command does (R76): one arm per row of R73. -/

namespace Sys2Proof.Machine

def exec (i : Instr) (s : State) : Host.Outcome State Fault Refusal :=
  match i with
  | .fxfromint n => Sys2Proof.Machine.execFxfromint n s
  | .fxtoint v => Sys2Proof.Machine.execFxtoint v s
  | .fxadd a b => Sys2Proof.Machine.execFxadd a b s
  | .fxsub a b => Sys2Proof.Machine.execFxsub a b s
  | .fxmul a b => Sys2Proof.Machine.execFxmul a b s
  | .fxdiv a b => Sys2Proof.Machine.execFxdiv a b s
  | .fxeq a b => Sys2Proof.Machine.execFxeq a b s
  | .fxne a b => Sys2Proof.Machine.execFxne a b s
  | .fxlt a b => Sys2Proof.Machine.execFxlt a b s
  | .fxle a b => Sys2Proof.Machine.execFxle a b s
  | .fxgt a b => Sys2Proof.Machine.execFxgt a b s
  | .fxge a b => Sys2Proof.Machine.execFxge a b s
  | .menc8 p => Sys2Proof.Machine.execMenc8 p s
  | .menc8i p => Sys2Proof.Machine.execMenc8i p s
  | .menc16 p => Sys2Proof.Machine.execMenc16 p s
  | .menc16i p => Sys2Proof.Machine.execMenc16i p s
  | .mdec8 p => Sys2Proof.Machine.execMdec8 p s
  | .mdec16 p => Sys2Proof.Machine.execMdec16 p s
  | .lsetlevel l t => Sys2Proof.Machine.execLsetlevel l t s
  | .lgetlevel => Sys2Proof.Machine.execLgetlevel s
  | .lisfading => Sys2Proof.Machine.execLisfading s
  | .labort => Sys2Proof.Machine.execLabort s
  | .lwaitfade => Sys2Proof.Machine.execLwaitfade s
  | .lsetcolor r g b t => Sys2Proof.Machine.execLsetcolor r g b t s
  | .lregister id => Sys2Proof.Machine.execLregister id s
  | .lunregister id => Sys2Proof.Machine.execLunregister id s
  | .ld2n v => Sys2Proof.Machine.execLd2n v s
  | .ln2d d => Sys2Proof.Machine.execLn2d d s
  | .lteardown => Sys2Proof.Machine.execLteardown s

end Sys2Proof.Machine
end

