-- ==== Sys2Proof/Machine/Agents.lean ====
section
/-! DEFINITION. The four kinds of step (R45): a host command, an engine time step, an engine event with its dispatch,
and reset. -/

namespace Sys2Proof.Machine

/-- The records of one dispatch (R212): every valid slot, in slot order. -/
def noticesFor (e : Byte) (slots : List Slot) : List Notice :=
  (slots.filter (·.valid)).map fun x => ⟨x.id, e⟩

/-- `on_engine_event(s)` (R212): dropped when the block is faulted or torn down. -/
def State.dispatch (e : Byte) (s : State) : State :=
  if s.faulted = false ∧ s.lifecycle = .active then { s with notify := s.notify ++ noticesFor e s.slots } else s

/-- The engine raises an event, which it does only while it is enabled (R216, R222, log 15). -/
def State.engineEvent (e : Byte) (s : State) : State :=
  if s.eng.enabled then s.dispatch e else s

/-- The command at the host's index (R24), and where the next one is fetched. -/
def State.fetch (s : State) : Option Command := s.pending.head?

/-- The block decides a command word (R76). -/
def stepCommand (k : Command) (s : State) : Result :=
  match decode k with
  | .ok i => exec i s
  | .error _ => .next (illegalCommand k.cmd s)

/-- The host's turn: it issues the command at its index, or tries it again; with no command left it does nothing
(log 2). -/
def hostTurn (s : State) : Result :=
  match s.fetch with
  | some k => stepCommand k s
  | none => .next s

/-- One agent's step (R45). -/
def takeTurn (t : Turn) (s : State) : Result :=
  match t with
  | .host => hostTurn s
  | .engineStep live => .next (s.setEngine (s.eng.timeStep live))
  | .engineEvent e => .next (s.engineEvent e)
  | .reset => .next s.resetStep

/-- Whose step comes next: the first listed turn's (log 1). With none listed the engine moves while its time step is
enabled, and else the host: so the engine's time steps are weakly fair and every fade ends (R220, R240, log 17). -/
def State.nextTurn (s : State) : Turn :=
  match s.turns with
  | t :: _ => t
  | [] => if s.eng.ready then .engineStep (Config.liveLevel s.draws) else .host

/-- The state the coming step starts from: its turn has left the list, or its drawn level is used up (log 5). -/
def State.turnTaken (s : State) : State :=
  { s with
    turns := s.turns.tail
    draws := if s.turns.isEmpty && s.eng.ready then s.draws + 1 else s.draws }

/-- The step that comes next. -/
def nextStep (s : State) : Result := takeTurn s.nextTurn s.turnTaken

end Sys2Proof.Machine
end

