-- ==== Sys2Proof/Machine/Step.lean ====
section
/-! DEFINITION. One step of the whole machine (R45), and placing an instruction where the next step fetches. -/

namespace Sys2Proof.Machine

/-- One atomic step (R45). -/
def step (s : State) : Host.Outcome State Fault Refusal := nextStep s

/-- The command whose opcode-table bits are the low `nbits` bits of `w`, with operand words of zeros above them,
becomes the command at the host's index, and the host's turn comes first (log 14). -/
def State.withFetchWord (s : State) (nbits w : Nat) : State := s.placeCommand (commandOfBits nbits w)

end Sys2Proof.Machine
end

