-- ==== Sys2Proof/Safety.lean ====
section
/-! DEFINITION. The terms claims are stated in: what two states have in common, the illegal words of R77, the
invariants of the machine, how a run ends (R250), and the optional assumption MONOTONE_FADE (R220). -/

namespace Sys2Proof.Machine

/-! ## What a step leaves alone -/

/-- `RES` and `STAT` are as before. -/
@[simp] abbrev SameResult (s t : State) : Prop := t.res = s.res ∧ t.stat = s.stat

/-- `FAULT` is as before. -/
@[simp] abbrev SameFaultRecord (s t : State) : Prop := t.faultCause = s.faultCause ∧ t.faultCmd = s.faultCmd

/-- The three colour registers are as before. -/
@[simp] abbrev SameColour (s t : State) : Prop := t.colR = s.colR ∧ t.colG = s.colG ∧ t.colB = s.colB

/-- Every register of the LAMP unit is as before (R30 to R33, and `LIFECYCLE`). -/
@[simp] abbrev SameLamp (s t : State) : Prop :=
  t.lifecycle = s.lifecycle ∧ t.mLevel = s.mLevel ∧ SameColour s t ∧ t.slots = s.slots

/-- `NOTIFY` and the model's own fields are as before. -/
@[simp] abbrev SameOutside (s t : State) : Prop := t.notify = s.notify ∧ t.turns = s.turns ∧ t.draws = s.draws

/-- The host's list of commands, its index and its holding mark are as before. -/
@[simp] abbrev SameHost (s t : State) : Prop := t.pending = s.pending ∧ t.holding = s.holding ∧ t.index = s.index

/-- The host's index moved past the command at it (R24; the list is log 2's). -/
@[simp] abbrev MovedPast (s t : State) : Prop :=
  t.pending = s.pending.tail ∧ t.holding = false ∧ t.index = s.index + 1

/-- The whole block state of R39 is as before. -/
@[simp] abbrev SameBlock (s t : State) : Prop := SameResult s t ∧ SameFaultRecord s t ∧ SameLamp s t

/-! ## Command words -/

/-- The reserved opcodes, in the order R77 lists them. -/
abbrev ReservedOpcode (o : Nat) : Prop :=
  o = 0x00 ∨ o = 0x07 ∨ (0x0E ≤ o ∧ o ≤ 0x1F) ∨ o = 0x25 ∨ o = 0x27 ∨ (0x28 ≤ o ∧ o ≤ 0x3F) ∨
    (0x4A ≤ o ∧ o ≤ 0x4E) ∨ (0x50 ≤ o ∧ o ≤ 0x5F) ∨ (0x60 ≤ o ∧ o ≤ 0xFF)

/-- R77: `CMD[31:8] != 0`, or a reserved opcode. -/
abbrev IllegalWord (w : Word) : Prop := w.toNat / 256 ≠ 0 ∨ ReservedOpcode (w.toNat % 256)

/-- The word is a row of R73 in the LAMP range (R72). -/
@[simp] abbrev LampWord (w : Word) : Prop := (0x40 ≤ w.toNat ∧ w.toNat ≤ 0x49) ∨ w.toNat = 0x4F

/-! ## Invariants -/

/-- R23: `STAT` holds one of its three legal values. -/
abbrev StatLegal (s : State) : Prop := s.stat = 0x00#8 ∨ s.stat = 0x01#8 ∨ s.stat = 0x02#8

/-- R26, R202: `FAULT` holds a cause of the table together with a command word that raises it. -/
abbrev FaultRecordSound (s : State) : Prop :=
  (s.faultCause = 0x00#8 ∧ s.faultCmd = 0x00000000#32) ∨
  (s.faultCause = 0x01#8 ∧ IllegalWord s.faultCmd) ∨
  (s.faultCause = 0x02#8 ∧ s.faultCmd = 0x00000006#32) ∨
  (s.faultCause = 0x03#8 ∧ LampWord s.faultCmd ∧ s.lifecycle = .tornDown)

/-- R33: the table has its capacity, and an empty slot's identity is 0 (R40, R171). -/
abbrev SlotTableSound (s : State) : Prop :=
  s.slots.length = Config.nClients ∧ ∀ x ∈ s.slots, x.valid = false → x.id = 0x00000000#32

/-- R31, R36: while the unit is active the engine is on, it stands at or heads for the commanded level, it stands
still exactly there, a fade in progress is within its time, and it holds the unit's colour; after teardown it is off. -/
structure LampEngineAgree (s : State) : Prop where
  on_while_active : s.lifecycle = .active → s.eng.enabled = true
  off_after_teardown : s.lifecycle = .tornDown → s.eng.enabled = false
  target_is_commanded : s.lifecycle = .active → s.eng.target = dali2driver s.mLevel
  idle_at_target : s.lifecycle = .active → s.eng.fading = false → s.eng.level = s.eng.target
  fade_within_time : s.lifecycle = .active → s.eng.fading = true →
    s.eng.duration ≠ 0x00000000#32 ∧ s.eng.elapsed < Config.fadeSteps s.eng.duration
  colour_forwarded : s.lifecycle = .active → s.eng.color = ⟨s.colR, s.colG, s.colB⟩

/-- R203, R240: a command holds only at a faulted block, or as LWAITFADE. -/
abbrev HoldingExplained (s : State) : Prop :=
  s.holding = true →
    ∃ k, s.pending.head? = some k ∧ (s.faulted = true ∨ decode k = .ok .lwaitfade)

/-! ## Runs -/

/-- A fault is recorded in some state of the first `n` steps from `s`, the state `s` among them. Reset clears `FAULT`,
not this. DESIGN CHOICE (log 22): the spec's runs start from reset, and R250 speaks of a command of the run that
faulted; a fault that already stands in the first state is counted here as if it were the run's own. -/
def FaultedWithin : Nat → State → Prop
  | 0, s => s.faultCause ≠ 0x00#8
  | n + 1, s =>
    s.faultCause ≠ 0x00#8 ∨
      match step s with
      | .next t => FaultedWithin n t
      | .fault _ => False
      | .refused _ => False

/-- R250: the run that begins at `s`, whose program is the host's list there, has ended normally after `n` steps: the
host's index has passed the last command of the program, and no fault was ever recorded. A command that reset discarded
leaves the list without the index passing it (R24, R230), so such a run never ends normally; nor does a run that
begins on a faulted block, even if a reset comes first (DESIGN CHOICE, log 22). -/
def EndedNormally (n : Nat) (s : State) : Prop :=
  ¬ FaultedWithin n s ∧ ∃ t, core.run n s = .next t ∧ t.index = s.index + s.pending.length

/-- R250: a command of the run that begins at `s` has faulted within `n` steps. DESIGN CHOICE (log 22): a run that
begins on a faulted block has ended faulted after 0 steps. -/
def EndedFaulted (n : Nat) (s : State) : Prop := FaultedWithin n s

/-- The optional assumption `MONOTONE_FADE` on one draw (R220): the drawn level lies between the fade's start and its
target and does not move away from the target. No rule and no claim here rests on it. -/
abbrev MonotoneFade (e : Engine) (live : Native) : Prop :=
  (e.origin.toNat ≤ live.toNat ∧ live.toNat ≤ e.target.toNat ∨
    e.target.toNat ≤ live.toNat ∧ live.toNat ≤ e.origin.toNat) ∧
  ((e.target.toNat : Int) - live.toNat).natAbs ≤ ((e.target.toNat : Int) - e.level.toNat).natAbs

/-- How many engine time steps a schedule holds. -/
def engineStepsIn : List Turn → Nat
  | [] => 0
  | .engineStep _ :: ts => engineStepsIn ts + 1
  | .host :: ts => engineStepsIn ts
  | .engineEvent _ :: ts => engineStepsIn ts
  | .reset :: ts => engineStepsIn ts

/-- The block's fixed-point division as a 64-bit implementation computes it (R93): magnitudes in unsigned 64-bit
words, half the divisor added, the sign put back. -/
def fxDiv64 (a b : Word) : Word :=
  let n : BitVec 64 := a.signExtend 64 <<< 29
  let d : BitVec 64 := b.signExtend 64
  let absN := if n.msb then -n else n
  let absD := if d.msb then -d else d
  let m := (absN + absD >>> 1) / absD
  (if n.msb == d.msb then m else -m).setWidth 32

/-- The block's fixed-point product as a 64-bit implementation computes it (R93, R104). -/
def fxMul64 (a b : Word) : Word :=
  ((a.signExtend 64 * b.signExtend 64 + 0x10000000#64).sshiftRight 29).setWidth 32

end Sys2Proof.Machine
end

