-- ==== Sys2Proof/Certificates/Slice0/Obligations.lean ====
section
/-! DEFINITION. The statements about the model. Each docstring names the rules of spec/ it formalises; a statement
about the host's list of commands or the list of turns rests on log 1, log 2 and log 3, and says so. -/

open Sys2Proof Sys2Proof.Machine

/-! ## Encoding -/

/-- Words written out from R70, R73, R74 and the examples of R79 decode to what they stand for; two illegal words are
rejected by name (R77). -/
def Obligations.SpecWordsDecode : Prop :=
  decode ⟨0x00000005#32, 0x30000000#32, 0x10000000#32, 0x00000000#32⟩ = .ok (.fxmul 0x30000000#32 0x10000000#32) ∧
  decode ⟨0x00000020#32, 0x000001FF#32, 0x00000000#32, 0x00000000#32⟩ = .ok (.menc8 0xFF#8) ∧
  decode ⟨0x00000045#32, 0x08000FFF#32, 0x00000000#32, 0x00000064#32⟩ =
    .ok (.lsetcolor 4095#12 2048#12 0#12 100#32) ∧
  decode ⟨0x00000101#32, 0x00000000#32, 0x00000000#32, 0x00000000#32⟩ = .error .reservedBits ∧
  decode ⟨0x00000025#32, 0xFFFF9966#32, 0x00000000#32, 0x00000000#32⟩ = .error .reservedOpcode

/-- R74, every row: the operand fields each opcode reads, at every value of the operand words, whatever the bits
outside the fields are. -/
def Obligations.EveryOpcodeReadsItsOperandFields : Prop :=
  ∀ a b c : Word,
    decode ⟨0x01#32, a, b, c⟩ = .ok (.fxfromint a) ∧
    decode ⟨0x02#32, a, b, c⟩ = .ok (.fxtoint a) ∧
    decode ⟨0x03#32, a, b, c⟩ = .ok (.fxadd a b) ∧
    decode ⟨0x04#32, a, b, c⟩ = .ok (.fxsub a b) ∧
    decode ⟨0x05#32, a, b, c⟩ = .ok (.fxmul a b) ∧
    decode ⟨0x06#32, a, b, c⟩ = .ok (.fxdiv a b) ∧
    decode ⟨0x08#32, a, b, c⟩ = .ok (.fxeq a b) ∧
    decode ⟨0x09#32, a, b, c⟩ = .ok (.fxne a b) ∧
    decode ⟨0x0A#32, a, b, c⟩ = .ok (.fxlt a b) ∧
    decode ⟨0x0B#32, a, b, c⟩ = .ok (.fxle a b) ∧
    decode ⟨0x0C#32, a, b, c⟩ = .ok (.fxgt a b) ∧
    decode ⟨0x0D#32, a, b, c⟩ = .ok (.fxge a b) ∧
    decode ⟨0x20#32, a, b, c⟩ = .ok (.menc8 (a.setWidth 8)) ∧
    decode ⟨0x21#32, a, b, c⟩ = .ok (.menc8i (a.setWidth 8)) ∧
    decode ⟨0x22#32, a, b, c⟩ = .ok (.menc16 (a.setWidth 16)) ∧
    decode ⟨0x23#32, a, b, c⟩ = .ok (.menc16i (a.setWidth 16)) ∧
    decode ⟨0x24#32, a, b, c⟩ = .ok (.mdec8 (a.setWidth 16)) ∧
    decode ⟨0x26#32, a, b, c⟩ = .ok (.mdec16 a) ∧
    decode ⟨0x40#32, a, b, c⟩ = .ok (.lsetlevel (a.setWidth 16) b) ∧
    decode ⟨0x41#32, a, b, c⟩ = .ok .lgetlevel ∧
    decode ⟨0x42#32, a, b, c⟩ = .ok .lisfading ∧
    decode ⟨0x43#32, a, b, c⟩ = .ok .labort ∧
    decode ⟨0x44#32, a, b, c⟩ = .ok .lwaitfade ∧
    decode ⟨0x45#32, a, b, c⟩ =
      .ok (.lsetcolor (a.setWidth 12) ((a >>> 16).setWidth 12) (b.setWidth 12) c) ∧
    decode ⟨0x46#32, a, b, c⟩ = .ok (.lregister a) ∧
    decode ⟨0x47#32, a, b, c⟩ = .ok (.lunregister a) ∧
    decode ⟨0x48#32, a, b, c⟩ = .ok (.ld2n (a.setWidth 16)) ∧
    decode ⟨0x49#32, a, b, c⟩ = .ok (.ln2d (a.setWidth 16)) ∧
    decode ⟨0x4F#32, a, b, c⟩ = .ok .lteardown

/-- Decode and encode agree for every instruction, every operand at every value (the encoder is R79's assembler). -/
def Obligations.DecodeOfEncodeIsTheInstruction : Prop :=
  ∀ i : Instr, decode (encode i) = .ok i

/-- A command that decodes has the command word its instruction encodes to, so an instruction's word is the whole word
the host issued (R70, R71, R73). -/
def Obligations.LegalWordIsItsInstructionsWord : Prop :=
  ∀ (k : Command) (i : Instr), decode k = .ok i → (encode i).cmd = k.cmd

/-- R79: the assembler puts the line of an instruction into the words `encode` gives it, and whatever it accepts is
the encoding of an instruction. -/
def Obligations.AssemblerProducesEncodings : Prop :=
  (∀ i : Instr, assemble i.line = some (encode i)) ∧
  (∀ (l : AsmLine) (k : Command), assemble l = some k → ∃ i, decode k = .ok i ∧ encode i = k)

/-- R80: the four pseudo-instructions and the real command each stands for, `FXNEG` with its operand as a signed literal
and as a hex one. `MDEC8I p` has an expansion where the complemented pattern fits the 16-bit field (log 16). -/
def Obligations.PseudoInstructionsExpand : Prop :=
  (∀ a : Word, assemble (pseudoFxneg a.toInt) = some (encode (.fxsub 0x00000000#32 a)) ∧
    assemble (pseudoFxneg a.toNat) = some (encode (.fxsub 0x00000000#32 a))) ∧
  fxSub 0x00000000#32 0x80000000#32 = 0x80000000#32 ∧
  (∀ p : Word, (p ^^^ 0xFFFFFFFF#32).toNat < 65536 →
    assemble (pseudoMdec8i p.toNat) = some (encode (.mdec8 ((p ^^^ 0xFFFFFFFF#32).setWidth 16)))) ∧
  (∀ p : Word, assemble (pseudoMdec16i p.toNat) = some (encode (.mdec16 (p ^^^ 0xFFFFFFFF#32)))) ∧
  (∀ l : Level, assemble (pseudoLsnap l.toNat) = some (encode (.lsetlevel l 0x00000000#32)))

/-! ## The step -/

/-- When it is the host's turn and the command at its index decodes to `i`, the step is `exec i`: on the state with the
turn taken off the list of turns where that turn is listed, and on the state itself where no turn is listed and the
engine's time step is not enabled (the list of turns, the host's list of commands and what follows the last listed turn
are the model's, log 1, log 2 and log 17). -/
def Obligations.StepRunsTheDecodedCommand : Prop :=
  ∀ (s : State) (k : Command) (ks : List Command) (ts : List Turn) (i : Instr),
    s.pending = k :: ks → decode k = .ok i →
      (s.turns = .host :: ts → step s = exec i { s with turns := ts }) ∧
      (s.turns = [] → s.eng.enabled = false ∨ s.eng.fading = false → step s = exec i s)

/-- The other agents' steps (R45): each turn is that agent's step on the state with the turn taken off the list; an event
of a disabled engine passes with no effect (log 15). With no turn listed a fade runs on, its drawn level a free value
(log 5, log 17), and a host that has issued every command leaves the state alone (log 1, log 2). The coming turn is the
first listed one, and with none listed the engine's while its time step is enabled and else the host's. -/
def Obligations.StepOfTheOtherAgents : Prop :=
  ∀ (s : State) (ts : List Turn),
    (∀ live, s.turns = .engineStep live :: ts →
      step s = .next { s with turns := ts, eng := s.eng.timeStep live }) ∧
    (∀ e, s.turns = .engineEvent e :: ts →
      (s.eng.enabled = true → step s = .next (State.dispatch e { s with turns := ts })) ∧
      (s.eng.enabled = false → step s = .next { s with turns := ts })) ∧
    (s.turns = .reset :: ts → step s = .next (State.resetStep { s with turns := ts })) ∧
    (s.turns = .host :: ts → s.pending = [] → step s = .next { s with turns := ts }) ∧
    (s.turns = [] → s.eng.enabled = true → s.eng.fading = true →
      step s = .next { s with draws := s.draws + 1, eng := s.eng.timeStep (Config.liveLevel s.draws) }) ∧
    (s.turns = [] → s.eng.enabled = false ∨ s.eng.fading = false → s.pending = [] → step s = .next s) ∧
    (∀ x, s.turns = x :: ts → s.nextTurn = x) ∧
    (s.turns = [] → s.eng.enabled = true → s.eng.fading = true →
      s.nextTurn = .engineStep (Config.liveLevel s.draws)) ∧
    (s.turns = [] → s.eng.enabled = false ∨ s.eng.fading = false → s.nextTurn = .host)

/-- R77, R206: exactly the words R77 lists are illegal, and performing one on a block that is not faulted raises
ILLEGAL_CMD with the word, changes nothing else of the block, the engine or NOTIFY, and moves the host past it: on every
host turn, a listed one (which leaves the list) or the one that comes with none listed (log 1, log 2). -/
def Obligations.IllegalWordsRaiseIllegalCmd : Prop :=
  (∀ k : Command, IllegalWord k.cmd ↔ ∃ r, decode k = .error r) ∧
  (∀ (s : State) (k : Command) (ks : List Command), s.nextTurn = .host → s.pending = k :: ks →
    s.faultCause = 0x00#8 → IllegalWord k.cmd →
      ∃ t, step s = .next t ∧ t.faultCause = 0x01#8 ∧ t.faultCmd = k.cmd ∧
        SameResult s t ∧ SameLamp s t ∧ t.eng = s.eng ∧ t.notify = s.notify ∧ t.turns = s.turns.tail ∧
        t.draws = s.draws ∧ MovedPast s t)

/-- R203: a faulted block is stopped. Every command holds, nothing changing but the host's mark that it does (the
mark is the model's, log 3). No step but reset changes its registers, its FAULT record or NOTIFY, or moves
the host past a command; the engine's own step still happens, and reset clears FAULT. -/
def Obligations.FaultedBlockIsStoppedUntilReset : Prop :=
  (∀ (i : Instr) (s : State), s.faultCause ≠ 0x00#8 → exec i s = .next { s with holding := true }) ∧
  ∀ s t : State, s.faultCause ≠ 0x00#8 → step s = .next t →
    (s.nextTurn ≠ .reset →
      SameBlock s t ∧ t.notify = s.notify ∧ t.pending = s.pending ∧ t.index = s.index ∧
      (∀ live, s.nextTurn = .engineStep live → t.eng = s.eng.timeStep live) ∧
      ((∀ live, s.nextTurn ≠ .engineStep live) → t.eng = s.eng)) ∧
    (s.nextTurn = .reset → t.faultCause = 0x00#8 ∧ t.faultCmd = 0x00000000#32)

/-- R205, R250: a run that has faulted stays so without reset, over any number of steps under any schedule, with RES,
STAT, FAULT, the LAMP registers, NOTIFY, the host's list and index as they were (the schedule and the list are the
model's, log 1 and log 2); and a run in which a command faulted ends faulted and never normally, however long it goes on
and even where a reset clears FAULT (that a fault standing in the run's first state counts as the run's own is the
model's choice, log 22). -/
def Obligations.FaultedRunStaysFaulted : Prop :=
  (∀ (n : Nat) (s t : State), s.faultCause ≠ 0x00#8 → Turn.reset ∉ s.turns → core.run n s = .next t →
    t.faultCause ≠ 0x00#8 ∧ SameBlock s t ∧ t.notify = s.notify ∧ t.pending = s.pending ∧ t.index = s.index) ∧
  (∀ (m n : Nat) (s : State), EndedFaulted m s → m ≤ n → EndedFaulted n s ∧ ¬ EndedNormally n s)

/-- R209: the order of the checks, on every host turn (log 1, log 2). A faulted block performs nothing, not even an
illegal word; a reserved LAMP-range word after teardown is ILLEGAL_CMD; a LAMP command after teardown is LAMP_OFF; a
division by zero is DIV_ZERO, whatever LIFECYCLE holds. -/
def Obligations.FaultChecksAreInOrder : Prop :=
  ∀ (s : State) (k : Command) (ks : List Command), s.nextTurn = .host → s.pending = k :: ks →
    (s.faultCause ≠ 0x00#8 → ∃ t, step s = .next t ∧ SameBlock s t ∧ t.eng = s.eng ∧ t.notify = s.notify ∧
      t.pending = s.pending ∧ t.index = s.index) ∧
    (s.faultCause = 0x00#8 → IllegalWord k.cmd → ∃ t, step s = .next t ∧ t.faultCause = 0x01#8) ∧
    (s.faultCause = 0x00#8 → LampWord k.cmd → s.lifecycle = .tornDown →
      ∃ t, step s = .next t ∧ t.faultCause = 0x03#8) ∧
    (s.faultCause = 0x00#8 → k.cmd = 0x00000006#32 → k.b = 0x00000000#32 →
      ∃ t, step s = .next t ∧ t.faultCause = 0x02#8)

/-- R202: no other condition raises a fault. A step from a block that is not faulted to one that is, is the host's
turn on a command that is an illegal word, FXDIV with B = 0, or a LAMP command after teardown; the cause is that
condition's and the whole word is recorded. -/
def Obligations.OnlyThreeConditionsRaiseAFault : Prop :=
  ∀ s t : State, s.faultCause = 0x00#8 → step s = .next t → t.faultCause ≠ 0x00#8 →
    s.nextTurn = .host ∧
    ∃ k, s.pending.head? = some k ∧ t.faultCmd = k.cmd ∧
      ((t.faultCause = 0x01#8 ∧ IllegalWord k.cmd) ∨
       (t.faultCause = 0x02#8 ∧ k.cmd = 0x00000006#32 ∧ k.b = 0x00000000#32) ∨
       (t.faultCause = 0x03#8 ∧ LampWord k.cmd ∧ s.lifecycle = .tornDown))

/-- R204: faults are precise. A command that leaves the block faulted has changed nothing of the block, the engine or
NOTIFY but FAULT. -/
def Obligations.FaultsArePrecise : Prop :=
  ∀ (i : Instr) (s t : State), s.faultCause = 0x00#8 → exec i s = .next t → t.faultCause ≠ 0x00#8 →
    SameResult s t ∧ SameLamp s t ∧ t.eng = s.eng ∧ SameOutside s t

/-- R175: after teardown every LAMP command raises LAMP_OFF with its own word and does nothing else (R201, R208);
every FXP and MAN command goes on to complete, but for a division by zero. -/
def Obligations.LampCommandsFaultAfterTeardown : Prop :=
  ∀ (i : Instr) (s : State), s.faultCause = 0x00#8 → s.lifecycle = .tornDown →
    (i.isLamp = true →
      ∃ t, exec i s = .next t ∧ t.faultCause = 0x03#8 ∧ t.faultCmd = (encode i).cmd ∧
        SameResult s t ∧ SameLamp s t ∧ t.eng = s.eng ∧ SameOutside s t) ∧
    (i.isLamp = false → (∀ a, i ≠ .fxdiv a 0x00000000#32) →
      ∃ t, exec i s = .next t ∧ t.stat = 0x00#8 ∧ SameFaultRecord s t)

/-- R240: LWAITFADE is the only command that can fail to complete in the step it is issued: on a block that is not
faulted every other command completes or faults, and the host moves past it; LWAITFADE does not exactly while the
engine fades (R24). -/
def Obligations.OnlyWaitFadeHolds : Prop :=
  ∀ (i : Instr) (s : State), s.faultCause = 0x00#8 →
    ∃ t, exec i s = .next t ∧
      ((i ≠ .lwaitfade ∨ s.eng.fading = false ∨ s.lifecycle = .tornDown) → MovedPast s t) ∧
      (i = .lwaitfade → s.eng.fading = true → s.lifecycle = .active →
        t.pending = s.pending ∧ t.index = s.index ∧ t.holding = true)

/-! ## FXP -/

/-- R100: the exact product n * 2^29, wrapped; it is the source's two stages, it is exact for n in -4 .. 3, and it
depends only on n mod 8. -/
def Obligations.FromIntScalesAndWraps : Prop :=
  (∀ (n : Word) (s : State), s.faultCause = 0x00#8 →
    ∃ t, exec (.fxfromint n) s = .next t ∧ t.res = BitVec.ofInt 32 (n.toInt * 2 ^ 29) ∧
      t.res = (n <<< 16) <<< 13 ∧ (-4 ≤ n.toInt → n.toInt ≤ 3 → t.res.toInt = n.toInt * 2 ^ 29) ∧
      t.stat = 0x00#8 ∧ t.faultCause = 0x00#8) ∧
  (∀ n m : Word, n.toNat % 8 = m.toNat % 8 → fxFromInt n = fxFromInt m)

/-- R101: the nearest integer, ties toward plus infinity, computed with no intermediate overflow: the integer r with
r <= (v + 2^28) / 2^29 < r + 1, which lies in -4 .. 4; and it is the source's two stages (shift down 16, add 2^12, shift
down 13; R91), which R101 marks as the spec's own derivation. -/
def Obligations.ToIntRoundsToNearest : Prop :=
  ∀ (v : Word) (s : State), s.faultCause = 0x00#8 →
    ∃ (t : State) (r : Int), exec (.fxtoint v) s = .next t ∧ t.res = BitVec.ofInt 32 r ∧
      r * 2 ^ 29 ≤ v.toInt + 2 ^ 28 ∧ v.toInt + 2 ^ 28 < (r + 1) * 2 ^ 29 ∧ -4 ≤ r ∧ r ≤ 4 ∧
      r = (v.toInt / 2 ^ 16 + 2 ^ 12) / 2 ^ 13 ∧ t.stat = 0x00#8 ∧ t.faultCause = 0x00#8

/-- R102, R103: addition and subtraction modulo 2^32. -/
def Obligations.AddAndSubtractWrap : Prop :=
  ∀ (a b : Word) (s : State), s.faultCause = 0x00#8 →
    (∃ t, exec (.fxadd a b) s = .next t ∧ t.res = a + b ∧ t.stat = 0x00#8 ∧ t.faultCause = 0x00#8) ∧
    (∃ t, exec (.fxsub a b) s = .next t ∧ t.res = a - b ∧ t.stat = 0x00#8 ∧ t.faultCause = 0x00#8)

/-- R104: the exact product, half an ULP added, divided by 2^29 and rounded down, then wrapped. -/
def Obligations.MultiplyRoundsToNearest : Prop :=
  ∀ (a b : Word) (s : State), s.faultCause = 0x00#8 →
    ∃ (t : State) (q : Int), exec (.fxmul a b) s = .next t ∧ t.res = BitVec.ofInt 32 q ∧
      q * 2 ^ 29 ≤ a.toInt * b.toInt + 2 ^ 28 ∧ a.toInt * b.toInt + 2 ^ 28 < (q + 1) * 2 ^ 29 ∧
      t.stat = 0x00#8 ∧ t.faultCause = 0x00#8

/-- R105 with this hardware's HALF_AWAY: for a divisor other than 0 the quotient of a * 2^29 by b rounded to nearest,
ties away from zero, then wrapped, which for a dividend 0 or signs that agree is the source's formula with truncating
division (the other branch of R105; that the branches agree there R105 marks as the spec's own derivation); for a zero divisor DIV_ZERO, RES and STAT unchanged. -/
def Obligations.DivideRoundsHalfAwayFromZero : Prop :=
  ∀ (a b : Word) (s : State), s.faultCause = 0x00#8 →
    (b ≠ 0x00000000#32 →
      ∃ (t : State) (q : Int), exec (.fxdiv a b) s = .next t ∧ t.res = BitVec.ofInt 32 q ∧
        2 * (q * b.toInt - a.toInt * 2 ^ 29).natAbs ≤ b.toInt.natAbs ∧
        (2 * (q * b.toInt - a.toInt * 2 ^ 29).natAbs = b.toInt.natAbs →
          (a.toInt * 2 ^ 29).natAbs < (q * b.toInt).natAbs) ∧
        (a = 0x00000000#32 ∨ (a.toInt < 0 ↔ b.toInt < 0) →
          q = Int.tdiv (a.toInt * 2 ^ 29 + Int.tdiv b.toInt 2) b.toInt) ∧
        t.stat = 0x00#8 ∧ t.faultCause = 0x00#8) ∧
    (b = 0x00000000#32 → ∃ t, exec (.fxdiv a b) s = .next t ∧ t.faultCause = 0x02#8 ∧ SameResult s t)

/-- R207: FXDIV by zero raises DIV_ZERO before any effect: FAULT = (0x02, 0x00000006) and nothing else of the block,
the engine or NOTIFY changes. -/
def Obligations.DivideByZeroRaisesDivZero : Prop :=
  ∀ (a : Word) (s : State), s.faultCause = 0x00#8 →
    ∃ t, exec (.fxdiv a 0x00000000#32) s = .next t ∧ t.faultCause = 0x02#8 ∧ t.faultCmd = 0x00000006#32 ∧
      SameResult s t ∧ SameLamp s t ∧ t.eng = s.eng ∧ SameOutside s t

/-- R110 to R116: each comparison writes 1 when its signed relation holds and 0 when it does not. -/
def Obligations.ComparisonsFollowTheSignedOrder : Prop :=
  ∀ (a b : Word) (s : State), s.faultCause = 0x00#8 →
    (∃ t, exec (.fxeq a b) s = .next t ∧ t.res = (if a = b then 1#32 else 0#32) ∧ t.stat = 0x00#8 ∧
      t.faultCause = 0x00#8) ∧
    (∃ t, exec (.fxne a b) s = .next t ∧ t.res = (if a = b then 0#32 else 1#32) ∧ t.stat = 0x00#8 ∧
      t.faultCause = 0x00#8) ∧
    (∃ t, exec (.fxlt a b) s = .next t ∧ t.res = (if BitVec.slt a b then 1#32 else 0#32) ∧ t.stat = 0x00#8 ∧
      t.faultCause = 0x00#8) ∧
    (∃ t, exec (.fxle a b) s = .next t ∧ t.res = (if BitVec.sle a b then 1#32 else 0#32) ∧ t.stat = 0x00#8 ∧
      t.faultCause = 0x00#8) ∧
    (∃ t, exec (.fxgt a b) s = .next t ∧ t.res = (if BitVec.slt b a then 1#32 else 0#32) ∧ t.stat = 0x00#8 ∧
      t.faultCause = 0x00#8) ∧
    (∃ t, exec (.fxge a b) s = .next t ∧ t.res = (if BitVec.sle b a then 1#32 else 0#32) ∧ t.stat = 0x00#8 ∧
      t.faultCause = 0x00#8)

/-- R93: the exact-integer rules equal a 64-bit implementation bit for bit, in product and quotient, and the 64-bit
intermediates stay within the bounds R93 gives, so none of them wraps (the spec derives this in R93). -/
def Obligations.ExactRulesEqualSixtyFourBitArithmetic : Prop :=
  ∀ a b : Word,
    fxMul a b = fxMul64 a b ∧ (a.toInt * b.toInt).natAbs ≤ 2 ^ 62 ∧
    (a.toInt * b.toInt + 2 ^ 28).natAbs < 2 ^ 63 ∧
    (b ≠ 0x00000000#32 →
      fxDiv .halfAway a b = fxDiv64 a b ∧ (a.toInt * 2 ^ 29).natAbs ≤ 2 ^ 60 ∧
      (a.toInt * 2 ^ 29).natAbs + b.toInt.natAbs / 2 ≤ 2 ^ 60 + 2 ^ 30 ∧
      (divRound .halfAway (a.toInt * 2 ^ 29) b.toInt).natAbs ≤ 2 ^ 60 + 1)

/-- R117: FXFROMINT then FXTOINT gives ((n + 4) mod 8) - 4, so n itself for n in -4 .. 3 (derived in R117). -/
def Obligations.IntegerRoundTrip : Prop :=
  ∀ (n : Word) (s : State), s.faultCause = 0x00#8 →
    ∃ t u, exec (.fxfromint n) s = .next t ∧ exec (.fxtoint t.res) t = .next u ∧
      u.res = BitVec.ofInt 32 ((n.toInt + 4) % 8 - 4) ∧ (-4 ≤ n.toInt → n.toInt ≤ 3 → u.res = n)

/-- R118: the laws of FXADD, FXSUB, FXMUL and FXDIV for all raw values, and that FXMUL is neither associative nor
distributive (derived in R118). -/
def Obligations.ArithmeticLaws : Prop :=
  (∀ a b : Word, fxAdd a b = fxAdd b a) ∧
  (∀ a b c : Word, fxAdd (fxAdd a b) c = fxAdd a (fxAdd b c)) ∧
  (∀ a b : Word, fxSub a b = fxAdd a (fxSub 0x00000000#32 b)) ∧
  (∀ a b : Word, fxMul a b = fxMul b a) ∧
  (∀ a : Word, fxMul a 0x20000000#32 = a ∧ fxMul 0x20000000#32 a = a) ∧
  (∀ a : Word, fxDiv Config.divMixedSign a 0x20000000#32 = a) ∧
  (∃ a b c : Word, fxMul (fxMul a b) c ≠ fxMul a (fxMul b c)) ∧
  (∃ a b c : Word, fxMul a (fxAdd b c) ≠ fxAdd (fxMul a b) (fxMul a c))

/-- R106: for |b| at most 1.0 and a quotient that does not wrap, FXDIV then FXMUL by the divisor comes back to within
one raw unit; for b = 0x7FFFFFFF there is an a, its quotient in range, that comes back two raw units away (derived in
R106). -/
def Obligations.DivideThenMultiplyComesBack : Prop :=
  (∀ (a b : Word) (s : State), s.faultCause = 0x00#8 → b ≠ 0x00000000#32 → b.toInt.natAbs ≤ 2 ^ 29 →
    -(2 ^ 31) ≤ divRound .halfAway (a.toInt * 2 ^ 29) b.toInt →
    divRound .halfAway (a.toInt * 2 ^ 29) b.toInt < 2 ^ 31 →
      ∃ t u, exec (.fxdiv a b) s = .next t ∧ exec (.fxmul t.res b) t = .next u ∧
        (u.res.toInt - a.toInt).natAbs ≤ 1) ∧
  (∃ a : Word, -(2 ^ 31) ≤ divRound .halfAway (a.toInt * 2 ^ 29) (0x7FFFFFFF#32 : Word).toInt ∧
    divRound .halfAway (a.toInt * 2 ^ 29) (0x7FFFFFFF#32 : Word).toInt < 2 ^ 31 ∧
    ((fxMul (fxDiv .halfAway a 0x7FFFFFFF#32) 0x7FFFFFFF#32).toInt - a.toInt).natAbs = 2)

/-! ## MAN -/

/-- R131 to R136: under every encode command the symbol of source bit i, at pattern bits 2i+1 and 2i, is 01 for a bit
that is 1 after the polarity's exclusive or and 10 otherwise, and every bit above the symbols is 1 (the closed form is
derived in R132). -/
def Obligations.EncodePlacesEverySymbol : Prop :=
  (∀ (p : BitVec 8) (s : State), s.faultCause = 0x00#8 →
    (∃ t, exec (.menc8 p) s = .next t ∧ t.stat = 0x00#8 ∧ t.faultCause = 0x00#8 ∧
      (∀ i < 8, t.res.getLsbD (2 * i) = p.getLsbD i ∧ t.res.getLsbD (2 * i + 1) = !p.getLsbD i) ∧
      (∀ j, 16 ≤ j → j < 32 → t.res.getLsbD j = true)) ∧
    (∃ t, exec (.menc8i p) s = .next t ∧ t.stat = 0x00#8 ∧ t.faultCause = 0x00#8 ∧
      (∀ i < 8, t.res.getLsbD (2 * i) = !p.getLsbD i ∧ t.res.getLsbD (2 * i + 1) = p.getLsbD i) ∧
      (∀ j, 16 ≤ j → j < 32 → t.res.getLsbD j = true))) ∧
  (∀ (p : BitVec 16) (s : State), s.faultCause = 0x00#8 →
    (∃ t, exec (.menc16 p) s = .next t ∧ t.stat = 0x00#8 ∧ t.faultCause = 0x00#8 ∧
      (∀ i < 16, t.res.getLsbD (2 * i) = p.getLsbD i ∧ t.res.getLsbD (2 * i + 1) = !p.getLsbD i)) ∧
    (∃ t, exec (.menc16i p) s = .next t ∧ t.stat = 0x00#8 ∧ t.faultCause = 0x00#8 ∧
      (∀ i < 16, t.res.getLsbD (2 * i) = !p.getLsbD i ∧ t.res.getLsbD (2 * i + 1) = p.getLsbD i)))

/-- R139 to R141: decode gives 0xFFFF when some symbol it reads has two equal bits, and otherwise the payload whose
bit i is pattern bit 2i (the closed form is derived in R139). -/
def Obligations.DecodeReadsEverySymbol : Prop :=
  (∀ (p : BitVec 16) (s : State), s.faultCause = 0x00#8 →
    ∃ t, exec (.mdec8 p) s = .next t ∧ t.stat = 0x00#8 ∧ t.faultCause = 0x00#8 ∧
      ((∃ i, i < 8 ∧ p.getLsbD (2 * i) = p.getLsbD (2 * i + 1)) → t.res = 0x0000FFFF#32) ∧
      ((∀ i, i < 8 → p.getLsbD (2 * i) ≠ p.getLsbD (2 * i + 1)) →
        ∀ j, t.res.getLsbD j = (decide (j < 8) && p.getLsbD (2 * j)))) ∧
  (∀ (p : BitVec 32) (s : State), s.faultCause = 0x00#8 →
    ∃ t, exec (.mdec16 p) s = .next t ∧ t.stat = 0x00#8 ∧ t.faultCause = 0x00#8 ∧
      ((∃ i, i < 16 ∧ p.getLsbD (2 * i) = p.getLsbD (2 * i + 1)) → t.res = 0x0000FFFF#32) ∧
      ((∀ i, i < 16 → p.getLsbD (2 * i) ≠ p.getLsbD (2 * i + 1)) →
        ∀ j, t.res.getLsbD j = (decide (j < 16) && p.getLsbD (2 * j))))

/-- R137: inversion complements exactly the significant bits, is normal polarity on the complemented payload, and
encode is injective (derived in R137). -/
def Obligations.EncodeLaws : Prop :=
  (∀ p : BitVec 8, manEnc p true = manEnc p false ^^^ 0x0000FFFF#32 ∧ manEnc p true = manEnc (~~~p) false) ∧
  (∀ p : BitVec 16, manEnc p true = manEnc p false ^^^ 0xFFFFFFFF#32 ∧ manEnc p true = manEnc (~~~p) false) ∧
  (∀ (p q : BitVec 8) (inv : Bool), manEnc p inv = manEnc q inv → p = q) ∧
  (∀ (p q : BitVec 16) (inv : Bool), manEnc p inv = manEnc q inv → p = q)

/-- R142: decoding an encoded payload gives it back, for both widths; an inverted one after the caller's complement,
and the complemented payload without it (derived in R142). -/
def Obligations.ManchesterRoundTrip : Prop :=
  (∀ (p : BitVec 16) (s : State), s.faultCause = 0x00#8 →
    (∃ t u, exec (.menc16 p) s = .next t ∧ exec (.mdec16 t.res) t = .next u ∧ u.res = p.setWidth 32) ∧
    (∃ t u, exec (.menc16i p) s = .next t ∧ exec (.mdec16 (t.res ^^^ 0xFFFFFFFF#32)) t = .next u ∧
      u.res = p.setWidth 32) ∧
    (∃ t u, exec (.menc16i p) s = .next t ∧ exec (.mdec16 t.res) t = .next u ∧ u.res = (~~~p).setWidth 32)) ∧
  (∀ (p : BitVec 8) (s : State), s.faultCause = 0x00#8 →
    (∃ t u, exec (.menc8 p) s = .next t ∧ exec (.mdec8 (t.res.setWidth 16)) t = .next u ∧
      u.res = p.setWidth 32) ∧
    (∃ t u, exec (.menc8i p) s = .next t ∧
      exec (.mdec8 ((t.res ^^^ 0xFFFFFFFF#32).setWidth 16)) t = .next u ∧ u.res = p.setWidth 32) ∧
    (∃ t u, exec (.menc8i p) s = .next t ∧ exec (.mdec8 (t.res.setWidth 16)) t = .next u ∧
      u.res = (~~~p).setWidth 32))

/-- R144: the marker is the sole error signal. Decode completes with STAT OK and no fault; for width 8 the result
0xFFFF means exactly that some symbol is illegal; for width 16 it means that, or the one valid pattern 0x55555555. -/
def Obligations.MarkerIsTheSoleErrorSignal : Prop :=
  (∀ (p : BitVec 16) (s : State), s.faultCause = 0x00#8 →
    ∃ t, exec (.mdec8 p) s = .next t ∧ t.stat = 0x00#8 ∧ SameFaultRecord s t ∧
      (t.res = 0x0000FFFF#32 ↔ ∃ i, i < 8 ∧ p.getLsbD (2 * i) = p.getLsbD (2 * i + 1))) ∧
  (∀ (p : BitVec 32) (s : State), s.faultCause = 0x00#8 →
    ∃ t, exec (.mdec16 p) s = .next t ∧ t.stat = 0x00#8 ∧ SameFaultRecord s t ∧
      (t.res = 0x0000FFFF#32 ↔
        (p = 0x55555555#32 ∨ ∃ i, i < 16 ∧ p.getLsbD (2 * i) = p.getLsbD (2 * i + 1))))

/-- R63: what an FXP or MAN command leaves in RES and STAT is a function of the command and its operands alone: two
blocks that are not faulted, whatever else they hold, answer the same, or both fault. -/
def Obligations.PureUnitsAreDeterministic : Prop :=
  ∀ (i : Instr) (s s' t t' : State), i.isLamp = false → s.faultCause = 0x00#8 → s'.faultCause = 0x00#8 →
    exec i s = .next t → exec i s' = .next t' →
      t.faultCause = t'.faultCause ∧ (t.faultCause = 0x00#8 → t.res = t'.res ∧ t.stat = t'.stat)

/-- The frame of every FXP and MAN command (R56, R63, R96): a completed one changes RES and STAT and nothing else of
the block, the engine or NOTIFY; the host moves past it. -/
def Obligations.PureCommandsChangeOnlyTheResult : Prop :=
  ∀ (i : Instr) (s t : State), i.isLamp = false → s.faultCause = 0x00#8 → exec i s = .next t →
    SameLamp s t ∧ t.eng = s.eng ∧ SameOutside s t ∧ MovedPast s t ∧
      (t.faultCause = 0x00#8 → t.faultCmd = s.faultCmd ∧ t.stat = 0x00#8)

/-! ## LAMP -/

/-- R160 with R217: the commanded level is recorded at once and the engine snaps for t = 0 and otherwise starts a fade
from its live level, superseding any fade; the native level is dali2driver of the logical one (R152). Colours, slots, LIFECYCLE, FAULT and NOTIFY stay. -/
def Obligations.SetLevelCommandsTheEngine : Prop :=
  ∀ (l : Level) (t : Word) (s : State), s.faultCause = 0x00#8 → s.lifecycle = .active →
    ∃ u, exec (.lsetlevel l t) s = .next u ∧ u.mLevel = l ∧ u.res = 0x00000000#32 ∧ u.stat = 0x00#8 ∧
      u.eng.target.toNat = min ((l.toNat * 4096 + 32768) / 65536) 4095 ∧
      (t = 0x00000000#32 → u.eng.level = u.eng.target ∧ u.eng.origin = u.eng.target ∧
        u.eng.duration = 0x00000000#32 ∧ u.eng.elapsed = 0 ∧ u.eng.fading = false) ∧
      (t ≠ 0x00000000#32 → u.eng.level = s.eng.level ∧ u.eng.origin = s.eng.level ∧ u.eng.duration = t ∧
        u.eng.elapsed = 0 ∧ u.eng.fading = true) ∧
      u.eng.enabled = s.eng.enabled ∧ u.eng.color = s.eng.color ∧
      u.lifecycle = s.lifecycle ∧ SameColour s u ∧ u.slots = s.slots ∧ SameFaultRecord s u ∧ SameOutside s u

/-- R161, R162, R151: LGETLEVEL answers the live level in the logical domain while the engine fades and the commanded
level otherwise; LISFADING answers the fading flag. Neither changes anything else. -/
def Obligations.LampQueriesReadTheVisibleState : Prop :=
  ∀ s : State, s.faultCause = 0x00#8 → s.lifecycle = .active →
    (∃ t, exec .lgetlevel s = .next t ∧
      (s.eng.fading = true → t.res.toNat = min ((s.eng.level.toNat * 65536 + 2048) / 4096) 65535) ∧
      (s.eng.fading = false → t.res.toNat = s.mLevel.toNat) ∧ t.stat = 0x00#8 ∧
      SameLamp s t ∧ t.eng = s.eng ∧ SameFaultRecord s t ∧ SameOutside s t) ∧
    (∃ t, exec .lisfading s = .next t ∧ t.res = (if s.eng.fading then 1#32 else 0#32) ∧ t.stat = 0x00#8 ∧
      SameLamp s t ∧ t.eng = s.eng ∧ SameFaultRecord s t ∧ SameOutside s t)

/-- R163 with R221: during a fade LABORT stops the engine where it is and makes that level, in the logical domain, the
commanded one; with no fade it changes nothing but RES and STAT. -/
def Obligations.AbortFreezesTheLiveLevel : Prop :=
  ∀ s : State, s.faultCause = 0x00#8 → s.lifecycle = .active →
    ∃ t, exec .labort s = .next t ∧ t.res = 0x00000000#32 ∧ t.stat = 0x00#8 ∧
      (s.eng.fading = true → t.eng = { s.eng with fading := false, target := s.eng.level } ∧
        t.mLevel.toNat = min ((s.eng.level.toNat * 65536 + 2048) / 4096) 65535) ∧
      (s.eng.fading = false → t.eng = s.eng ∧ t.mLevel = s.mLevel) ∧
      t.lifecycle = s.lifecycle ∧ SameColour s t ∧ t.slots = s.slots ∧ SameFaultRecord s t ∧ SameOutside s t

/-- R163: after an abort the level does not drift: LGETLEVEL straight after LABORT answers the frozen level, a multiple
of 16, and again after any number of engine time steps (the spec's "no further drift after abort"). -/
def Obligations.NoDriftAfterAbort : Prop :=
  ∀ (s t : State) (draws : List Native), s.faultCause = 0x00#8 → s.lifecycle = .active → s.eng.fading = true →
    exec .labort s = .next t →
      ∃ u, exec .lgetlevel (t.setEngine (draws.foldl (fun e live => e.timeStep live) t.eng)) = .next u ∧
        u.res.toNat = 16 * s.eng.level.toNat

/-- R164: LWAITFADE completes at once when no fade is in progress, changing only RES and STAT, and takes no step while
one is: nothing changes but the host's mark that it holds (log 3). -/
def Obligations.WaitFadeHoldsOrCompletes : Prop :=
  ∀ s : State, s.faultCause = 0x00#8 → s.lifecycle = .active →
    (s.eng.fading = false →
      ∃ t, exec .lwaitfade s = .next t ∧ t.res = 0x00000000#32 ∧ t.stat = 0x00#8 ∧ MovedPast s t ∧
        SameLamp s t ∧ t.eng = s.eng ∧ SameFaultRecord s t ∧ SameOutside s t) ∧
    (s.eng.fading = true → exec .lwaitfade s = .next { s with holding := true })

/-- R166 with R218: LSETCOLOR stores and forwards the colour. With t = 0, or a fade in progress, or a hardware whose
COLOR_FADE_SETS_FADING does not hold, the engine's flag and levels stay; otherwise it fades from its level to itself. -/
def Obligations.SetColorStoresAndForwards : Prop :=
  ∀ (r g b : Native) (t : Word) (s : State), s.faultCause = 0x00#8 → s.lifecycle = .active →
    ∃ u, exec (.lsetcolor r g b t) s = .next u ∧ u.colR = r ∧ u.colG = g ∧ u.colB = b ∧
      u.res = 0x00000000#32 ∧ u.stat = 0x00#8 ∧
      (t = 0x00000000#32 ∨ s.eng.fading = true ∨ Config.colorFadeSetsFading = false →
        u.eng = { s.eng with color := ⟨r, g, b⟩ }) ∧
      (t ≠ 0x00000000#32 → s.eng.fading = false → Config.colorFadeSetsFading = true →
        u.eng = { s.eng with color := ⟨r, g, b⟩, origin := s.eng.level, target := s.eng.level, duration := t,
                             elapsed := 0, fading := true }) ∧
      u.mLevel = s.mLevel ∧ u.lifecycle = s.lifecycle ∧ u.slots = s.slots ∧ SameFaultRecord s u ∧ SameOutside s u

/-- R170, for any number of slots (R10): the least empty slot takes the identity and every other slot stays, STAT OK;
with no empty slot STAT is CAPACITY and no slot changes. -/
def Obligations.RegisterTakesTheLeastEmptySlot : Prop :=
  ∀ (id : Word) (s : State), s.faultCause = 0x00#8 → s.lifecycle = .active →
    ∃ t, exec (.lregister id) s = .next t ∧ t.res = 0x00000000#32 ∧
      (∀ (before after : List Slot) (x : Slot), s.slots = before ++ x :: after → (∀ y ∈ before, y.valid = true) →
        x.valid = false → t.slots = before ++ ⟨true, id⟩ :: after ∧ t.stat = 0x00#8) ∧
      ((∀ y ∈ s.slots, y.valid = true) → t.slots = s.slots ∧ t.stat = 0x01#8) ∧
      t.lifecycle = s.lifecycle ∧ t.mLevel = s.mLevel ∧ SameColour s t ∧ t.eng = s.eng ∧ SameFaultRecord s t ∧
      SameOutside s t

/-- R171, for any number of slots (R10): the least slot that is valid with the identity is emptied and its identity
cleared, every other slot stays, STAT OK; with no such slot STAT is NOT_REGISTERED and no slot changes. -/
def Obligations.UnregisterEmptiesTheLeastMatchingSlot : Prop :=
  ∀ (id : Word) (s : State), s.faultCause = 0x00#8 → s.lifecycle = .active →
    ∃ t, exec (.lunregister id) s = .next t ∧ t.res = 0x00000000#32 ∧
      (∀ before after : List Slot, s.slots = before ++ ⟨true, id⟩ :: after →
        (∀ y ∈ before, y.valid = true → y.id ≠ id) →
          t.slots = before ++ ⟨false, 0x00000000#32⟩ :: after ∧ t.stat = 0x00#8) ∧
      ((∀ y ∈ s.slots, y.valid = true → y.id ≠ id) → t.slots = s.slots ∧ t.stat = 0x02#8) ∧
      t.lifecycle = s.lifecycle ∧ t.mLevel = s.mLevel ∧ SameColour s t ∧ t.eng = s.eng ∧ SameFaultRecord s t ∧
      SameOutside s t

/-- R172, R173 with R152, R153: the conversion commands answer the rounded and clamped quotients and change nothing
but RES and STAT. -/
def Obligations.ConversionCommandsAnswer : Prop :=
  ∀ s : State, s.faultCause = 0x00#8 → s.lifecycle = .active →
    (∀ v : Level, ∃ t, exec (.ld2n v) s = .next t ∧
      t.res.toNat = min ((v.toNat * 4096 + 32768) / 65536) 4095 ∧ t.stat = 0x00#8 ∧
      SameLamp s t ∧ t.eng = s.eng ∧ SameFaultRecord s t ∧ SameOutside s t) ∧
    (∀ d : BitVec 16, ∃ t, exec (.ln2d d) s = .next t ∧
      t.res.toNat = min ((d.toNat * 65536 + 2048) / 4096) 65535 ∧ t.stat = 0x00#8 ∧
      SameLamp s t ∧ t.eng = s.eng ∧ SameFaultRecord s t ∧ SameOutside s t)

/-- R153, R154: the conversions' laws over every input (derived there). -/
def Obligations.ConversionLaws : Prop :=
  dali2driver 0#16 = 0#12 ∧ dali2driver 65535#16 = 4095#12 ∧ driver2dali 0 = 0#16 ∧
  driver2dali 4095 = 65520#16 ∧
  (∀ d : Nat, (driver2dali d).toNat = min (16 * d) 65535) ∧
  (∀ d : Native, dali2driver (driver2dali d.toNat) = d) ∧
  (∀ v : Level, (driver2dali (dali2driver v).toNat).toNat = min ((v.toNat + 8) / 16 * 16) 65520 ∧
    ((driver2dali (dali2driver v).toNat).toNat : Int) - v.toNat ≤ 15 ∧
    (v.toNat : Int) - (driver2dali (dali2driver v).toNat).toNat ≤ 15)

/-- R174 with R216: LTEARDOWN disables the engine and tears the unit down; mLevel, colours and slots keep their values.
Nothing is said of the engine's other fields, which are unspecified (log 6). -/
def Obligations.TeardownDisablesTheEngine : Prop :=
  ∀ s : State, s.faultCause = 0x00#8 → s.lifecycle = .active →
    ∃ t, exec .lteardown s = .next t ∧ t.eng.enabled = false ∧ t.lifecycle = .tornDown ∧
      t.res = 0x00000000#32 ∧ t.stat = 0x00#8 ∧ t.mLevel = s.mLevel ∧ SameColour s t ∧ t.slots = s.slots ∧
      SameFaultRecord s t ∧ t.notify = s.notify ∧ t.turns = s.turns

/-! ## The engine, events, reset -/

/-- R220: the engine's step counts up, ends the fade at its target once FADE_STEPS is reached and otherwise takes the
drawn level, whatever it is; an engine that is off or not fading takes no step (log 15). It changes nothing outside the
engine. The drawn level is a listed turn's, or the free value of a step that none is listed for (log 5). -/
def Obligations.EngineStepAdvancesTheFade : Prop :=
  ∀ (s : State) (live : Native), s.nextTurn = .engineStep live → ∃ t, step s = .next t ∧
    SameBlock s t ∧ t.notify = s.notify ∧ SameHost s t ∧
    (s.eng.enabled = true → s.eng.fading = true → Config.fadeSteps s.eng.duration ≤ s.eng.elapsed + 1 →
      t.eng = { s.eng with elapsed := s.eng.elapsed + 1, level := s.eng.target, fading := false }) ∧
    (s.eng.enabled = true → s.eng.fading = true → s.eng.elapsed + 1 < Config.fadeSteps s.eng.duration →
      t.eng = { s.eng with elapsed := s.eng.elapsed + 1, level := live }) ∧
    (s.eng.enabled = false ∨ s.eng.fading = false → t.eng = s.eng)

/-- R212: dispatching an event appends one record for each valid slot, in slot order, when the block is neither faulted
nor torn down, and makes none otherwise; it changes nothing but NOTIFY. -/
def Obligations.EventsNotifyEveryObserverInSlotOrder : Prop :=
  ∀ (s : State) (e : Byte),
    (s.faultCause = 0x00#8 → s.lifecycle = .active →
      s.dispatch e = { s with notify := s.notify ++ (s.slots.filter fun x => x.valid).map fun x => ⟨x.id, e⟩ }) ∧
    (s.faultCause ≠ 0x00#8 ∨ s.lifecycle = .tornDown → s.dispatch e = s)

/-- R38: NOTIFY is append-only over every step, reset among them, and only an engine event's dispatch appends. -/
def Obligations.NotifyOnlyGrowsByDispatch : Prop :=
  ∀ s t : State, step s = .next t →
    s.notify <+: t.notify ∧ (t.notify ≠ s.notify → ∃ e, s.nextTurn = .engineEvent e)

/-- R231, R232: from any state whatever, the reset step leaves every register of the block and the engine at its reset
value, with N_CLIENTS slots the slot table too, and keeps NOTIFY (that the engine ends so whatever it held before R231
marks as the spec's own derivation). -/
def Obligations.ResetConstructsFromAnyState : Prop :=
  ∀ s : State,
    SameResult State.reset s.resetStep ∧ SameFaultRecord State.reset s.resetStep ∧ s.resetStep.lifecycle = .active ∧
    s.resetStep.mLevel = 0#16 ∧ s.resetStep.colR = 4095#12 ∧ s.resetStep.colG = 4095#12 ∧
    s.resetStep.colB = 4095#12 ∧ s.resetStep.slots = s.slots.map (fun _ => ⟨false, 0x00000000#32⟩) ∧
    s.resetStep.eng = State.reset.eng ∧ SameOutside s s.resetStep ∧
    (s.slots.length = Config.nClients → s.resetStep.slots = State.reset.slots)

/-- R230: reset discards a holding command, which never completes, so that the run whose program it is of never ends
normally (R250), however long it goes on; a command that was not issued yet stays (that the host's list moves past a
discarded command and the index does not is the model's, log 3 and log 4; whose turn it is, log 1). -/
def Obligations.ResetDiscardsAHoldingCommand : Prop :=
  ∀ s : State, s.nextTurn = .reset →
    (∃ t, step s = .next t ∧ t.holding = false ∧ t.index = s.index ∧
      (s.holding = true → t.pending = s.pending.tail) ∧ (s.holding = false → t.pending = s.pending)) ∧
    (s.holding = true → s.pending ≠ [] → ∀ n, ¬ EndedNormally n s)

/-- R40: the reset value of every piece of block and engine state. -/
def Obligations.ResetValues : Prop :=
  State.reset.res = 0x00000000#32 ∧ State.reset.stat = 0x00#8 ∧ State.reset.faultCause = 0x00#8 ∧
  State.reset.faultCmd = 0x00000000#32 ∧ State.reset.lifecycle = .active ∧ State.reset.mLevel = 0#16 ∧
  State.reset.colR = 4095#12 ∧ State.reset.colG = 4095#12 ∧ State.reset.colB = 4095#12 ∧
  State.reset.slots = [⟨false, 0x00000000#32⟩] ∧ State.reset.eng.enabled = true ∧
  State.reset.eng.fading = false ∧ State.reset.eng.level = 0#12 ∧ State.reset.eng.target = 0#12 ∧
  State.reset.eng.origin = 0#12 ∧ State.reset.eng.duration = 0x00000000#32 ∧ State.reset.eng.elapsed = 0 ∧
  State.reset.eng.color = ⟨4095#12, 4095#12, 4095#12⟩

/-! ## Whole-machine rules -/

/-- R165 (derived there): besides reset, mLevel is written only by LSETLEVEL and by LABORT during a fade. -/
def Obligations.OnlySetLevelAbortAndResetWriteTheLevel : Prop :=
  ∀ s t : State, step s = .next t → t.mLevel ≠ s.mLevel →
    s.nextTurn = .reset ∨
    ∃ k, s.pending.head? = some k ∧
      ((∃ l u, decode k = .ok (.lsetlevel l u)) ∨ (decode k = .ok .labort ∧ s.eng.fading = true))

/-- R27, R32, R33: besides reset, the colours are written only by LSETCOLOR, the slots only by LREGISTER and
LUNREGISTER, and LIFECYCLE only by LTEARDOWN, which writes TORN_DOWN. -/
def Obligations.WritersOfTheLampRegisters : Prop :=
  ∀ s t : State, step s = .next t → s.nextTurn ≠ .reset →
    (¬ SameColour s t → ∃ k r g b u, s.pending.head? = some k ∧ decode k = .ok (.lsetcolor r g b u)) ∧
    (t.slots ≠ s.slots → ∃ k id, s.pending.head? = some k ∧
      (decode k = .ok (.lregister id) ∨ decode k = .ok (.lunregister id))) ∧
    (t.lifecycle ≠ s.lifecycle → t.lifecycle = .tornDown ∧
      ∃ k, s.pending.head? = some k ∧ decode k = .ok .lteardown)

/-- R220, R240: a fade ends. After as many engine time steps as are left of FADE_STEPS, whatever levels the engine
draws, it is not fading and stands at its target; and engine time steps are weakly fair: from every state, whatever is
listed, a run comes to a state with no fade in progress (that a fade runs on when no turn is listed is log 17). -/
def Obligations.FadeEndsAtItsTarget : Prop :=
  (∀ (e : Engine) (draws : List Native), e.enabled = true → e.fading = true →
    Config.fadeSteps e.duration ≤ e.elapsed + draws.length →
    draws ≠ [] →
      (draws.foldl (fun x live => x.timeStep live) e).fading = false ∧
      (draws.foldl (fun x live => x.timeStep live) e).level = e.target) ∧
  (∀ s : State, ∃ n t, core.run n s = .next t ∧ (t.eng.enabled = false ∨ t.eng.fading = false))

/-- R161, R164: a fade that runs out by itself leaves the level LSETLEVEL commanded. After LSETLEVEL with a fade time and
at least FADE_STEPS engine time steps, whatever levels the engine draws, LGETLEVEL answers that level verbatim and
LISFADING answers 0. -/
def Obligations.FinishedFadeShowsTheCommandedLevel : Prop :=
  ∀ (l : Level) (u : Word) (s t : State) (draws : List Native), s.faultCause = 0x00#8 → s.lifecycle = .active →
    s.eng.enabled = true → exec (.lsetlevel l u) s = .next t → Config.fadeSteps u ≤ draws.length →
      (∃ v, exec .lgetlevel (t.setEngine (draws.foldl (fun e live => e.timeStep live) t.eng)) = .next v ∧
        v.res.toNat = l.toNat) ∧
      (∃ v, exec .lisfading (t.setEngine (draws.foldl (fun e live => e.timeStep live) t.eng)) = .next v ∧
        v.res = 0x00000000#32)

/-- R164, R240: a holding LWAITFADE completes. From any state where it is the host's last command, under any schedule
without reset that holds the engine steps the fade still needs, the host's turn after it finds the command completed:
nothing is pending, RES is 0, the engine is idle at the fade's target (the schedule is log 1's). And from any state where
it is the host's coming command, whatever is listed but no reset, it completes within the listed turns, FADE_STEPS more
steps and one (the fairness is log 17's). -/
def Obligations.WaitFadeCompletesUnderEverySchedule : Prop :=
  (∀ (s : State) (k : Command) (ts : List Turn), s.faultCause = 0x00#8 → s.lifecycle = .active →
    s.eng.enabled = true → s.eng.fading = true → s.pending = [k] → decode k = .ok .lwaitfade →
    Turn.reset ∉ ts → s.turns = ts ++ [.host] → Config.fadeSteps s.eng.duration ≤ s.eng.elapsed + engineStepsIn ts →
    0 < engineStepsIn ts →
      ∃ t, core.run (ts.length + 1) s = .next t ∧ t.pending = [] ∧ t.index = s.index + 1 ∧
        t.res = 0x00000000#32 ∧ t.stat = 0x00#8 ∧ t.eng.fading = false ∧ t.eng.level = s.eng.target ∧
        t.mLevel = s.mLevel ∧ t.faultCause = 0x00#8) ∧
  (∀ (s : State) (k : Command) (ks : List Command), s.faultCause = 0x00#8 → s.lifecycle = .active →
    s.eng.enabled = true → s.pending = k :: ks → decode k = .ok .lwaitfade → Turn.reset ∉ s.turns →
      ∃ n t, n ≤ s.turns.length + Config.fadeSteps s.eng.duration + 1 ∧ core.run n s = .next t ∧
        t.pending = ks ∧ t.index = s.index + 1 ∧ t.res = 0x00000000#32 ∧ t.stat = 0x00#8 ∧
        t.eng.fading = false ∧ (s.eng.fading = true → t.eng.level = s.eng.target) ∧ t.mLevel = s.mLevel ∧
        t.faultCause = 0x00#8)

/-! ## Invariants -/

/-- R31, R36: from every state where the LAMP unit and the engine agree, every step leaves them agreeing: the engine
stands at or heads for the commanded level, and so on (LampEngineAgree). -/
def Obligations.StepKeepsLampAndEngineAgreed : Prop :=
  ∀ s t : State, LampEngineAgree s → step s = .next t → LampEngineAgree t

/-- R23, R26, R202, R33: every step keeps STAT legal, FAULT a record of the table, and the slot table at its capacity
with empty slots cleared. -/
def Obligations.StepKeepsTheRegistersLegal : Prop :=
  ∀ s t : State, step s = .next t →
    (StatLegal s → StatLegal t) ∧ (FaultRecordSound s → FaultRecordSound t) ∧
    (SlotTableSound s → SlotTableSound t)

/-- R203, R240: every step keeps it so that only a faulted block or LWAITFADE makes the host's command hold (the
holding mark is the model's, log 3). -/
def Obligations.StepKeepsHoldingExplained : Prop :=
  ∀ s t : State, HoldingExplained s → step s = .next t → HoldingExplained t

/-- The invariants hold right after reset. -/
def Obligations.ResetMeetsTheInvariants : Prop :=
  LampEngineAgree State.reset ∧ StatLegal State.reset ∧ FaultRecordSound State.reset ∧
    SlotTableSound State.reset ∧ HoldingExplained State.reset
end

