-- ==== Sys2Proof/Laws/Decode.lean ====
section
/-! SUPPORT. Fields, command words and the opcode table: what the decoder reads and what it answers. -/

namespace Sys2Proof

@[simp] theorem fieldAt_zero (a : Word) (n : Nat) : fieldAt a 0 n = a.setWidth n := by
  unfold fieldAt
  ext i
  simp

theorem fieldAt_eq_shift (a : Word) (k n : Nat) : fieldAt a k n = (a >>> k).setWidth n := by
  unfold fieldAt
  ext i
  simp

/-- Cutting a field that was widened to a word gives it back. -/
@[simp] theorem setWidth_word_setWidth {n : Nat} (h : n ≤ 32) (p : BitVec n) : (p.setWidth 32).setWidth n = p :=
  BitVec.setWidth_setWidth_of_le p h |>.trans (by simp)

@[simp] theorem rsvField_opcodeWord (o : Byte) : rsvField (opcodeWord o) = 0#24 := by
  unfold rsvField fieldAt opcodeWord
  ext i h
  simp

@[simp] theorem opcField_opcodeWord (o : Byte) : opcField (opcodeWord o) = o := by
  unfold opcField opcodeWord
  simp

/-- A word with `RSV` 0 is the word of its opcode (R70). -/
theorem word_of_rsvField_eq_zero {w : Word} (h : rsvField w = 0#24) : w = opcodeWord (opcField w) := by
  ext j hj
  by_cases hl : j < 8
  · simp [opcodeWord, opcField, hl, BitVec.getLsbD_eq_getElem hj]
  · have hb := congrArg (fun v => v.getLsbD (j - 8)) h
    simp [rsvField, fieldAt, show 8 + (j - 8) = j by omega, show j - 8 < 24 by omega] at hb
    simpa [opcodeWord, opcField, hl, BitVec.getLsbD_eq_getElem hj] using hb

/-- A row of the opcode table decodes whatever its operand words hold. -/
theorem decode_opcodeWord {o : Byte} {a b c : Word} {i : Instr} (h : decodeOpcode o a b c = some i) :
    decode ⟨opcodeWord o, a, b, c⟩ = .ok i := by
  simp [decode, h]

/-- The opcode of a decoded instruction is the one its encoding carries. -/
theorem encode_cmd_of_decodeOpcode {o : Byte} {a b c : Word} {i : Instr} (h : decodeOpcode o a b c = some i) :
    (encode i).cmd = opcodeWord o := by
  unfold decodeOpcode at h
  split at h <;> cases h
  all_goals
    rename_i ho
    exact congrArg opcodeWord (BitVec.eq_of_toNat_eq ho.symm)

/-- What the decoder can answer: an instruction of the table's row under a zero `RSV`, or a named rejection. -/
theorem decode_cases (k : Command) :
    (∃ i, decode k = .ok i ∧ rsvField k.cmd = 0#24 ∧ decodeOpcode (opcField k.cmd) k.a k.b k.c = some i) ∨
    (decode k = .error .reservedOpcode ∧ rsvField k.cmd = 0#24 ∧
      decodeOpcode (opcField k.cmd) k.a k.b k.c = none) ∨
    (decode k = .error .reservedBits ∧ rsvField k.cmd ≠ 0#24) := by
  unfold decode
  by_cases h : rsvField k.cmd = 0#24
  · cases hd : decodeOpcode (opcField k.cmd) k.a k.b k.c <;> simp [h]
  · simp [h]

theorem decodeOpcode_of_decode {k : Command} {i : Instr} (h : decode k = .ok i) :
    rsvField k.cmd = 0#24 ∧ decodeOpcode (opcField k.cmd) k.a k.b k.c = some i := by
  rcases decode_cases k with ⟨j, hj, hr, ho⟩ | ⟨he, -⟩ | ⟨he, -⟩
  · rw [h] at hj; cases hj; exact ⟨hr, ho⟩
  · rw [h] at he; cases he
  · rw [h] at he; cases he

end Sys2Proof
end

