-- ==== Sys2Proof/Laws/Engine.lean ====
section
/-! SUPPORT. What the engine's operations and its time step can do. -/

namespace Sys2Proof.Machine

/-- The engine's time step (R220): nothing, the end of the fade, or one more drawn level. -/
theorem timeStep_cases (live : Native) (e : Engine) :
    ((e.enabled = false ∨ e.fading = false) ∧ e.timeStep live = e) ∨
    (e.enabled = true ∧ e.fading = true ∧ Config.fadeSteps e.duration ≤ e.elapsed + 1 ∧
      e.timeStep live = { e with elapsed := e.elapsed + 1, level := e.target, fading := false }) ∨
    (e.enabled = true ∧ e.fading = true ∧ e.elapsed + 1 < Config.fadeSteps e.duration ∧
      e.timeStep live = { e with elapsed := e.elapsed + 1, level := live }) := by
  unfold Engine.timeStep
  by_cases h : e.enabled = true ∧ e.fading = true
  · by_cases hc : Config.fadeSteps e.duration ≤ e.elapsed + 1
    · exact .inr (.inl ⟨h.1, h.2, hc, by simp [h, hc]⟩)
    · exact .inr (.inr ⟨h.1, h.2, by omega, by simp [h, hc]⟩)
  · refine .inl ⟨?_, by simp only [h, if_false]⟩
    cases he : e.enabled <;> cases hf : e.fading <;> simp_all

/-- An engine that does not fade takes no step. -/
theorem timeStep_of_idle {e : Engine} (h : e.fading = false) (live : Native) : e.timeStep live = e := by
  simp [Engine.timeStep, h]

@[simp] theorem timeStep_enabled (live : Native) (e : Engine) : (e.timeStep live).enabled = e.enabled := by
  rcases timeStep_cases live e with ⟨-, h⟩ | ⟨-, -, -, h⟩ | ⟨-, -, -, h⟩ <;> rw [h]

@[simp] theorem timeStep_target (live : Native) (e : Engine) : (e.timeStep live).target = e.target := by
  rcases timeStep_cases live e with ⟨-, h⟩ | ⟨-, -, -, h⟩ | ⟨-, -, -, h⟩ <;> rw [h]

@[simp] theorem timeStep_duration (live : Native) (e : Engine) : (e.timeStep live).duration = e.duration := by
  rcases timeStep_cases live e with ⟨-, h⟩ | ⟨-, -, -, h⟩ | ⟨-, -, -, h⟩ <;> rw [h]

@[simp] theorem timeStep_color (live : Native) (e : Engine) : (e.timeStep live).color = e.color := by
  rcases timeStep_cases live e with ⟨-, h⟩ | ⟨-, -, -, h⟩ | ⟨-, -, -, h⟩ <;> rw [h]

/-- The construction sequence leaves the engine at its reset values whatever it held (R231). -/
@[simp] theorem construct_eq_reset (e : Engine) : e.construct = Engine.reset := by
  simp [Engine.construct, Engine.setColor, Engine.setLevel, Engine.enable, Engine.reset]

end Sys2Proof.Machine
end

