-- ==== Sys2Proof/Laws/State.lean ====
section
/-! SUPPORT. One lemma per field per named update of State, true by unfolding, so that no later proof unfolds a record
update. -/

namespace Sys2Proof.Machine

@[simp] theorem complete_res (v : Word) (c : Byte) (s : State) : (s.complete v c).res = v := rfl
@[simp] theorem complete_stat (v : Word) (c : Byte) (s : State) : (s.complete v c).stat = c := rfl
@[simp] theorem complete_faultCause (v : Word) (c : Byte) (s : State) : (s.complete v c).faultCause = s.faultCause := rfl
@[simp] theorem complete_faultCmd (v : Word) (c : Byte) (s : State) : (s.complete v c).faultCmd = s.faultCmd := rfl
@[simp] theorem complete_lifecycle (v : Word) (c : Byte) (s : State) : (s.complete v c).lifecycle = s.lifecycle := rfl
@[simp] theorem complete_mLevel (v : Word) (c : Byte) (s : State) : (s.complete v c).mLevel = s.mLevel := rfl
@[simp] theorem complete_colR (v : Word) (c : Byte) (s : State) : (s.complete v c).colR = s.colR := rfl
@[simp] theorem complete_colG (v : Word) (c : Byte) (s : State) : (s.complete v c).colG = s.colG := rfl
@[simp] theorem complete_colB (v : Word) (c : Byte) (s : State) : (s.complete v c).colB = s.colB := rfl
@[simp] theorem complete_slots (v : Word) (c : Byte) (s : State) : (s.complete v c).slots = s.slots := rfl
@[simp] theorem complete_eng (v : Word) (c : Byte) (s : State) : (s.complete v c).eng = s.eng := rfl
@[simp] theorem complete_notify (v : Word) (c : Byte) (s : State) : (s.complete v c).notify = s.notify := rfl
@[simp] theorem complete_pending (v : Word) (c : Byte) (s : State) : (s.complete v c).pending = s.pending.tail := rfl
@[simp] theorem complete_holding (v : Word) (c : Byte) (s : State) : (s.complete v c).holding = false := rfl
@[simp] theorem complete_index (v : Word) (c : Byte) (s : State) : (s.complete v c).index = s.index + 1 := rfl
@[simp] theorem complete_turns (v : Word) (c : Byte) (s : State) : (s.complete v c).turns = s.turns := rfl
@[simp] theorem complete_draws (v : Word) (c : Byte) (s : State) : (s.complete v c).draws = s.draws := rfl

@[simp] theorem raiseFault_res (c : Byte) (w : Word) (s : State) : (s.raiseFault c w).res = s.res := rfl
@[simp] theorem raiseFault_stat (c : Byte) (w : Word) (s : State) : (s.raiseFault c w).stat = s.stat := rfl
@[simp] theorem raiseFault_faultCause (c : Byte) (w : Word) (s : State) : (s.raiseFault c w).faultCause = c := rfl
@[simp] theorem raiseFault_faultCmd (c : Byte) (w : Word) (s : State) : (s.raiseFault c w).faultCmd = w := rfl
@[simp] theorem raiseFault_lifecycle (c : Byte) (w : Word) (s : State) : (s.raiseFault c w).lifecycle = s.lifecycle := rfl
@[simp] theorem raiseFault_mLevel (c : Byte) (w : Word) (s : State) : (s.raiseFault c w).mLevel = s.mLevel := rfl
@[simp] theorem raiseFault_colR (c : Byte) (w : Word) (s : State) : (s.raiseFault c w).colR = s.colR := rfl
@[simp] theorem raiseFault_colG (c : Byte) (w : Word) (s : State) : (s.raiseFault c w).colG = s.colG := rfl
@[simp] theorem raiseFault_colB (c : Byte) (w : Word) (s : State) : (s.raiseFault c w).colB = s.colB := rfl
@[simp] theorem raiseFault_slots (c : Byte) (w : Word) (s : State) : (s.raiseFault c w).slots = s.slots := rfl
@[simp] theorem raiseFault_eng (c : Byte) (w : Word) (s : State) : (s.raiseFault c w).eng = s.eng := rfl
@[simp] theorem raiseFault_notify (c : Byte) (w : Word) (s : State) : (s.raiseFault c w).notify = s.notify := rfl
@[simp] theorem raiseFault_pending (c : Byte) (w : Word) (s : State) : (s.raiseFault c w).pending = s.pending.tail := rfl
@[simp] theorem raiseFault_holding (c : Byte) (w : Word) (s : State) : (s.raiseFault c w).holding = false := rfl
@[simp] theorem raiseFault_index (c : Byte) (w : Word) (s : State) : (s.raiseFault c w).index = s.index + 1 := rfl
@[simp] theorem raiseFault_turns (c : Byte) (w : Word) (s : State) : (s.raiseFault c w).turns = s.turns := rfl
@[simp] theorem raiseFault_draws (c : Byte) (w : Word) (s : State) : (s.raiseFault c w).draws = s.draws := rfl

@[simp] theorem hold_res (s : State) : s.hold.res = s.res := rfl
@[simp] theorem hold_stat (s : State) : s.hold.stat = s.stat := rfl
@[simp] theorem hold_faultCause (s : State) : s.hold.faultCause = s.faultCause := rfl
@[simp] theorem hold_faultCmd (s : State) : s.hold.faultCmd = s.faultCmd := rfl
@[simp] theorem hold_lifecycle (s : State) : s.hold.lifecycle = s.lifecycle := rfl
@[simp] theorem hold_mLevel (s : State) : s.hold.mLevel = s.mLevel := rfl
@[simp] theorem hold_colR (s : State) : s.hold.colR = s.colR := rfl
@[simp] theorem hold_colG (s : State) : s.hold.colG = s.colG := rfl
@[simp] theorem hold_colB (s : State) : s.hold.colB = s.colB := rfl
@[simp] theorem hold_slots (s : State) : s.hold.slots = s.slots := rfl
@[simp] theorem hold_eng (s : State) : s.hold.eng = s.eng := rfl
@[simp] theorem hold_notify (s : State) : s.hold.notify = s.notify := rfl
@[simp] theorem hold_pending (s : State) : s.hold.pending = s.pending := rfl
@[simp] theorem hold_holding (s : State) : s.hold.holding = true := rfl
@[simp] theorem hold_index (s : State) : s.hold.index = s.index := rfl
@[simp] theorem hold_turns (s : State) : s.hold.turns = s.turns := rfl
@[simp] theorem hold_draws (s : State) : s.hold.draws = s.draws := rfl

@[simp] theorem setEngine_res (e : Engine) (s : State) : (s.setEngine e).res = s.res := rfl
@[simp] theorem setEngine_stat (e : Engine) (s : State) : (s.setEngine e).stat = s.stat := rfl
@[simp] theorem setEngine_faultCause (e : Engine) (s : State) : (s.setEngine e).faultCause = s.faultCause := rfl
@[simp] theorem setEngine_faultCmd (e : Engine) (s : State) : (s.setEngine e).faultCmd = s.faultCmd := rfl
@[simp] theorem setEngine_lifecycle (e : Engine) (s : State) : (s.setEngine e).lifecycle = s.lifecycle := rfl
@[simp] theorem setEngine_mLevel (e : Engine) (s : State) : (s.setEngine e).mLevel = s.mLevel := rfl
@[simp] theorem setEngine_colR (e : Engine) (s : State) : (s.setEngine e).colR = s.colR := rfl
@[simp] theorem setEngine_colG (e : Engine) (s : State) : (s.setEngine e).colG = s.colG := rfl
@[simp] theorem setEngine_colB (e : Engine) (s : State) : (s.setEngine e).colB = s.colB := rfl
@[simp] theorem setEngine_slots (e : Engine) (s : State) : (s.setEngine e).slots = s.slots := rfl
@[simp] theorem setEngine_eng (e : Engine) (s : State) : (s.setEngine e).eng = e := rfl
@[simp] theorem setEngine_notify (e : Engine) (s : State) : (s.setEngine e).notify = s.notify := rfl
@[simp] theorem setEngine_pending (e : Engine) (s : State) : (s.setEngine e).pending = s.pending := rfl
@[simp] theorem setEngine_holding (e : Engine) (s : State) : (s.setEngine e).holding = s.holding := rfl
@[simp] theorem setEngine_index (e : Engine) (s : State) : (s.setEngine e).index = s.index := rfl
@[simp] theorem setEngine_turns (e : Engine) (s : State) : (s.setEngine e).turns = s.turns := rfl
@[simp] theorem setEngine_draws (e : Engine) (s : State) : (s.setEngine e).draws = s.draws := rfl

@[simp] theorem setMLevel_res (l : Level) (s : State) : (s.setMLevel l).res = s.res := rfl
@[simp] theorem setMLevel_stat (l : Level) (s : State) : (s.setMLevel l).stat = s.stat := rfl
@[simp] theorem setMLevel_faultCause (l : Level) (s : State) : (s.setMLevel l).faultCause = s.faultCause := rfl
@[simp] theorem setMLevel_faultCmd (l : Level) (s : State) : (s.setMLevel l).faultCmd = s.faultCmd := rfl
@[simp] theorem setMLevel_lifecycle (l : Level) (s : State) : (s.setMLevel l).lifecycle = s.lifecycle := rfl
@[simp] theorem setMLevel_mLevel (l : Level) (s : State) : (s.setMLevel l).mLevel = l := rfl
@[simp] theorem setMLevel_colR (l : Level) (s : State) : (s.setMLevel l).colR = s.colR := rfl
@[simp] theorem setMLevel_colG (l : Level) (s : State) : (s.setMLevel l).colG = s.colG := rfl
@[simp] theorem setMLevel_colB (l : Level) (s : State) : (s.setMLevel l).colB = s.colB := rfl
@[simp] theorem setMLevel_slots (l : Level) (s : State) : (s.setMLevel l).slots = s.slots := rfl
@[simp] theorem setMLevel_eng (l : Level) (s : State) : (s.setMLevel l).eng = s.eng := rfl
@[simp] theorem setMLevel_notify (l : Level) (s : State) : (s.setMLevel l).notify = s.notify := rfl
@[simp] theorem setMLevel_pending (l : Level) (s : State) : (s.setMLevel l).pending = s.pending := rfl
@[simp] theorem setMLevel_holding (l : Level) (s : State) : (s.setMLevel l).holding = s.holding := rfl
@[simp] theorem setMLevel_index (l : Level) (s : State) : (s.setMLevel l).index = s.index := rfl
@[simp] theorem setMLevel_turns (l : Level) (s : State) : (s.setMLevel l).turns = s.turns := rfl
@[simp] theorem setMLevel_draws (l : Level) (s : State) : (s.setMLevel l).draws = s.draws := rfl

@[simp] theorem setColour_res (k : Rgb) (s : State) : (s.setColour k).res = s.res := rfl
@[simp] theorem setColour_stat (k : Rgb) (s : State) : (s.setColour k).stat = s.stat := rfl
@[simp] theorem setColour_faultCause (k : Rgb) (s : State) : (s.setColour k).faultCause = s.faultCause := rfl
@[simp] theorem setColour_faultCmd (k : Rgb) (s : State) : (s.setColour k).faultCmd = s.faultCmd := rfl
@[simp] theorem setColour_lifecycle (k : Rgb) (s : State) : (s.setColour k).lifecycle = s.lifecycle := rfl
@[simp] theorem setColour_mLevel (k : Rgb) (s : State) : (s.setColour k).mLevel = s.mLevel := rfl
@[simp] theorem setColour_colR (k : Rgb) (s : State) : (s.setColour k).colR = k.r := rfl
@[simp] theorem setColour_colG (k : Rgb) (s : State) : (s.setColour k).colG = k.g := rfl
@[simp] theorem setColour_colB (k : Rgb) (s : State) : (s.setColour k).colB = k.b := rfl
@[simp] theorem setColour_slots (k : Rgb) (s : State) : (s.setColour k).slots = s.slots := rfl
@[simp] theorem setColour_eng (k : Rgb) (s : State) : (s.setColour k).eng = s.eng := rfl
@[simp] theorem setColour_notify (k : Rgb) (s : State) : (s.setColour k).notify = s.notify := rfl
@[simp] theorem setColour_pending (k : Rgb) (s : State) : (s.setColour k).pending = s.pending := rfl
@[simp] theorem setColour_holding (k : Rgb) (s : State) : (s.setColour k).holding = s.holding := rfl
@[simp] theorem setColour_index (k : Rgb) (s : State) : (s.setColour k).index = s.index := rfl
@[simp] theorem setColour_turns (k : Rgb) (s : State) : (s.setColour k).turns = s.turns := rfl
@[simp] theorem setColour_draws (k : Rgb) (s : State) : (s.setColour k).draws = s.draws := rfl

@[simp] theorem setSlots_res (ss : List Slot) (s : State) : (s.setSlots ss).res = s.res := rfl
@[simp] theorem setSlots_stat (ss : List Slot) (s : State) : (s.setSlots ss).stat = s.stat := rfl
@[simp] theorem setSlots_faultCause (ss : List Slot) (s : State) : (s.setSlots ss).faultCause = s.faultCause := rfl
@[simp] theorem setSlots_faultCmd (ss : List Slot) (s : State) : (s.setSlots ss).faultCmd = s.faultCmd := rfl
@[simp] theorem setSlots_lifecycle (ss : List Slot) (s : State) : (s.setSlots ss).lifecycle = s.lifecycle := rfl
@[simp] theorem setSlots_mLevel (ss : List Slot) (s : State) : (s.setSlots ss).mLevel = s.mLevel := rfl
@[simp] theorem setSlots_colR (ss : List Slot) (s : State) : (s.setSlots ss).colR = s.colR := rfl
@[simp] theorem setSlots_colG (ss : List Slot) (s : State) : (s.setSlots ss).colG = s.colG := rfl
@[simp] theorem setSlots_colB (ss : List Slot) (s : State) : (s.setSlots ss).colB = s.colB := rfl
@[simp] theorem setSlots_slots (ss : List Slot) (s : State) : (s.setSlots ss).slots = ss := rfl
@[simp] theorem setSlots_eng (ss : List Slot) (s : State) : (s.setSlots ss).eng = s.eng := rfl
@[simp] theorem setSlots_notify (ss : List Slot) (s : State) : (s.setSlots ss).notify = s.notify := rfl
@[simp] theorem setSlots_pending (ss : List Slot) (s : State) : (s.setSlots ss).pending = s.pending := rfl
@[simp] theorem setSlots_holding (ss : List Slot) (s : State) : (s.setSlots ss).holding = s.holding := rfl
@[simp] theorem setSlots_index (ss : List Slot) (s : State) : (s.setSlots ss).index = s.index := rfl
@[simp] theorem setSlots_turns (ss : List Slot) (s : State) : (s.setSlots ss).turns = s.turns := rfl
@[simp] theorem setSlots_draws (ss : List Slot) (s : State) : (s.setSlots ss).draws = s.draws := rfl

@[simp] theorem tearDown_res (s : State) : s.tearDown.res = s.res := rfl
@[simp] theorem tearDown_stat (s : State) : s.tearDown.stat = s.stat := rfl
@[simp] theorem tearDown_faultCause (s : State) : s.tearDown.faultCause = s.faultCause := rfl
@[simp] theorem tearDown_faultCmd (s : State) : s.tearDown.faultCmd = s.faultCmd := rfl
@[simp] theorem tearDown_lifecycle (s : State) : s.tearDown.lifecycle = .tornDown := rfl
@[simp] theorem tearDown_mLevel (s : State) : s.tearDown.mLevel = s.mLevel := rfl
@[simp] theorem tearDown_colR (s : State) : s.tearDown.colR = s.colR := rfl
@[simp] theorem tearDown_colG (s : State) : s.tearDown.colG = s.colG := rfl
@[simp] theorem tearDown_colB (s : State) : s.tearDown.colB = s.colB := rfl
@[simp] theorem tearDown_slots (s : State) : s.tearDown.slots = s.slots := rfl
@[simp] theorem tearDown_eng (s : State) : s.tearDown.eng = s.eng.disable s.draws := rfl
@[simp] theorem tearDown_notify (s : State) : s.tearDown.notify = s.notify := rfl
@[simp] theorem tearDown_pending (s : State) : s.tearDown.pending = s.pending := rfl
@[simp] theorem tearDown_holding (s : State) : s.tearDown.holding = s.holding := rfl
@[simp] theorem tearDown_index (s : State) : s.tearDown.index = s.index := rfl
@[simp] theorem tearDown_turns (s : State) : s.tearDown.turns = s.turns := rfl
@[simp] theorem tearDown_draws (s : State) : s.tearDown.draws = s.draws + 1 := rfl

@[simp] theorem resetStep_res (s : State) : s.resetStep.res = 0#32 := rfl
@[simp] theorem resetStep_stat (s : State) : s.resetStep.stat = statOk := rfl
@[simp] theorem resetStep_faultCause (s : State) : s.resetStep.faultCause = causeNone := rfl
@[simp] theorem resetStep_faultCmd (s : State) : s.resetStep.faultCmd = 0#32 := rfl
@[simp] theorem resetStep_lifecycle (s : State) : s.resetStep.lifecycle = .active := rfl
@[simp] theorem resetStep_mLevel (s : State) : s.resetStep.mLevel = 0#16 := rfl
@[simp] theorem resetStep_colR (s : State) : s.resetStep.colR = Config.colFull := rfl
@[simp] theorem resetStep_colG (s : State) : s.resetStep.colG = Config.colFull := rfl
@[simp] theorem resetStep_colB (s : State) : s.resetStep.colB = Config.colFull := rfl
@[simp] theorem resetStep_slots (s : State) : s.resetStep.slots = s.slots.map fun _ => Slot.empty := rfl
@[simp] theorem resetStep_eng (s : State) : s.resetStep.eng = s.eng.construct := rfl
@[simp] theorem resetStep_notify (s : State) : s.resetStep.notify = s.notify := rfl
@[simp] theorem resetStep_pending (s : State) : s.resetStep.pending = if s.holding then s.pending.tail else s.pending := rfl
@[simp] theorem resetStep_holding (s : State) : s.resetStep.holding = false := rfl
@[simp] theorem resetStep_index (s : State) : s.resetStep.index = s.index := rfl
@[simp] theorem resetStep_turns (s : State) : s.resetStep.turns = s.turns := rfl
@[simp] theorem resetStep_draws (s : State) : s.resetStep.draws = s.draws := rfl

@[simp] theorem placeCommand_res (k : Command) (s : State) : (s.placeCommand k).res = s.res := rfl
@[simp] theorem placeCommand_stat (k : Command) (s : State) : (s.placeCommand k).stat = s.stat := rfl
@[simp] theorem placeCommand_faultCause (k : Command) (s : State) : (s.placeCommand k).faultCause = s.faultCause := rfl
@[simp] theorem placeCommand_faultCmd (k : Command) (s : State) : (s.placeCommand k).faultCmd = s.faultCmd := rfl
@[simp] theorem placeCommand_lifecycle (k : Command) (s : State) : (s.placeCommand k).lifecycle = s.lifecycle := rfl
@[simp] theorem placeCommand_mLevel (k : Command) (s : State) : (s.placeCommand k).mLevel = s.mLevel := rfl
@[simp] theorem placeCommand_colR (k : Command) (s : State) : (s.placeCommand k).colR = s.colR := rfl
@[simp] theorem placeCommand_colG (k : Command) (s : State) : (s.placeCommand k).colG = s.colG := rfl
@[simp] theorem placeCommand_colB (k : Command) (s : State) : (s.placeCommand k).colB = s.colB := rfl
@[simp] theorem placeCommand_slots (k : Command) (s : State) : (s.placeCommand k).slots = s.slots := rfl
@[simp] theorem placeCommand_eng (k : Command) (s : State) : (s.placeCommand k).eng = s.eng := rfl
@[simp] theorem placeCommand_notify (k : Command) (s : State) : (s.placeCommand k).notify = s.notify := rfl
@[simp] theorem placeCommand_pending (k : Command) (s : State) : (s.placeCommand k).pending = k :: s.pending.tail := rfl
@[simp] theorem placeCommand_holding (k : Command) (s : State) : (s.placeCommand k).holding = false := rfl
@[simp] theorem placeCommand_index (k : Command) (s : State) : (s.placeCommand k).index = s.index := rfl
@[simp] theorem placeCommand_turns (k : Command) (s : State) : (s.placeCommand k).turns = .host :: s.turns := rfl
@[simp] theorem placeCommand_draws (k : Command) (s : State) : (s.placeCommand k).draws = s.draws := rfl

end Sys2Proof.Machine
end

