-- ==== Sys2Proof/Laws/Ops.lean ====
section
/-! SUPPORT. What the shared operations can do: the checks of R76, and every command by the one lemma of its shape. -/

namespace Sys2Proof.Machine

theorem faulted_eq_false_iff (s : State) : s.faulted = false ↔ s.faultCause = 0#8 := by
  simp [State.faulted, causeNone]

theorem faulted_eq_true_iff (s : State) : s.faulted = true ↔ s.faultCause ≠ 0#8 := by
  simp [State.faulted, causeNone]

theorem whenRunning_of_running {s : State} (h : s.faultCause = 0#8) (act : State → State) :
    whenRunning s act = act s := by
  simp [whenRunning, (faulted_eq_false_iff s).2 h]

theorem whenRunning_of_faulted {s : State} (h : s.faultCause ≠ 0#8) (act : State → State) :
    whenRunning s act = s.hold := by
  simp [whenRunning, (faulted_eq_true_iff s).2 h]

theorem pureCommand_of_running {s : State} (h : s.faultCause = 0#8) (v : Word) :
    pureCommand v s = s.complete v statOk :=
  whenRunning_of_running h _

theorem illegalCommand_of_running {s : State} (h : s.faultCause = 0#8) (w : Word) :
    illegalCommand w s = s.raiseFault causeIllegalCmd w :=
  whenRunning_of_running h _

theorem lampCommand_of_active {s : State} (h : s.faultCause = 0#8) (ha : s.lifecycle = .active) (i : Instr)
    (act : State → State) : lampCommand i s act = act s := by
  simp [lampCommand, whenRunning_of_running h, ha]

theorem lampCommand_of_tornDown {s : State} (h : s.faultCause = 0#8) (ha : s.lifecycle = .tornDown) (i : Instr)
    (act : State → State) : lampCommand i s act = s.raiseFault causeLampOff (commandWord i) := by
  simp [lampCommand, whenRunning_of_running h, ha]

theorem lampCommand_of_faulted {s : State} (h : s.faultCause ≠ 0#8) (i : Instr) (act : State → State) :
    lampCommand i s act = s.hold :=
  whenRunning_of_faulted h _

/-- LIFECYCLE has two values. -/
theorem lifecycle_cases (s : State) : s.lifecycle = .active ∨ s.lifecycle = .tornDown := by
  cases s.lifecycle <;> simp

end Sys2Proof.Machine
end

