-- ==== Sys2Proof/Laws/Exec.lean ====
section
/-! SUPPORT. What each command does, said once: the pure units by one lemma, each LAMP command on an active unit by
one equation, every LAMP command after teardown, and every command on a faulted block. -/

namespace Sys2Proof.Machine

/-- A pure command answers one fixed word on every running block, or is a division by zero (R63, R105, R207). -/
theorem exec_pure {i : Instr} (h : i.isLamp = false) :
    (∃ v, ∀ s : State, s.faultCause = 0#8 → exec i s = .next (s.complete v statOk)) ∨
    (∃ a, i = .fxdiv a 0#32 ∧
      ∀ s : State, s.faultCause = 0#8 → exec i s = .next (s.raiseFault causeDivZero 0x06#32)) := by
  cases i with
  | fxdiv a b =>
    by_cases hb : b = 0#32
    · subst hb
      exact .inr ⟨a, rfl, fun s hs => congrArg _ (whenRunning_of_running hs _)⟩
    · refine .inl ⟨fxDiv Config.divMixedSign a b, fun s hs => ?_⟩
      have hz : s32 b ≠ 0 := fun hc => hb (BitVec.eq_of_toInt_eq hc)
      simp [exec, execFxdiv, whenRunning_of_running hs, hz]
  | lsetlevel | lgetlevel | lisfading | labort | lwaitfade | lsetcolor | lregister | lunregister | ld2n | ln2d
  | lteardown => simp [Instr.isLamp, commandWord, encode, opcodeWord, fieldAt_eq_shift] at h
  | _ => exact .inl ⟨_, fun s hs => congrArg _ (pureCommand_of_running hs _)⟩

/-- Every command ends in a next state. -/
theorem exec_next (i : Instr) (s : State) : ∃ t, exec i s = .next t := by
  cases i <;> exact ⟨_, rfl⟩

/-- A faulted block performs no command (R203). -/
theorem exec_of_faulted {s : State} (hs : s.faultCause ≠ 0#8) (i : Instr) : exec i s = .next s.hold := by
  cases i <;> exact congrArg _ (whenRunning_of_faulted hs _)

theorem exec_fxdiv_of_ne_zero {s : State} (hs : s.faultCause = 0#8) (a : Word) {b : Word} (hb : b ≠ 0#32) :
    exec (.fxdiv a b) s = .next (s.complete (fxDiv Config.divMixedSign a b) statOk) := by
  have hz : s32 b ≠ 0 := fun hc => hb (BitVec.eq_of_toInt_eq hc)
  simp [exec, execFxdiv, whenRunning_of_running hs, hz]

section running

variable {s : State} (hs : s.faultCause = 0#8)

include hs

theorem exec_fxfromint (n : Word) :
    exec (.fxfromint n) s = .next (s.complete (fxFromInt n) statOk) :=
  congrArg Host.Outcome.next (pureCommand_of_running hs _)

theorem exec_fxtoint (v : Word) :
    exec (.fxtoint v) s = .next (s.complete (fxToInt v) statOk) :=
  congrArg Host.Outcome.next (pureCommand_of_running hs _)

theorem exec_fxadd (a b : Word) :
    exec (.fxadd a b) s = .next (s.complete (fxAdd a b) statOk) :=
  congrArg Host.Outcome.next (pureCommand_of_running hs _)

theorem exec_fxsub (a b : Word) :
    exec (.fxsub a b) s = .next (s.complete (fxSub a b) statOk) :=
  congrArg Host.Outcome.next (pureCommand_of_running hs _)

theorem exec_fxmul (a b : Word) :
    exec (.fxmul a b) s = .next (s.complete (fxMul a b) statOk) :=
  congrArg Host.Outcome.next (pureCommand_of_running hs _)

theorem exec_fxeq (a b : Word) :
    exec (.fxeq a b) s = .next (s.complete (boolWord (decide (s32 a = s32 b))) statOk) :=
  congrArg Host.Outcome.next (pureCommand_of_running hs _)

theorem exec_fxne (a b : Word) :
    exec (.fxne a b) s = .next (s.complete (boolWord (decide (s32 a ≠ s32 b))) statOk) :=
  congrArg Host.Outcome.next (pureCommand_of_running hs _)

theorem exec_fxlt (a b : Word) :
    exec (.fxlt a b) s = .next (s.complete (boolWord (decide (s32 a < s32 b))) statOk) :=
  congrArg Host.Outcome.next (pureCommand_of_running hs _)

theorem exec_fxle (a b : Word) :
    exec (.fxle a b) s = .next (s.complete (boolWord (decide (s32 a ≤ s32 b))) statOk) :=
  congrArg Host.Outcome.next (pureCommand_of_running hs _)

theorem exec_fxgt (a b : Word) :
    exec (.fxgt a b) s = .next (s.complete (boolWord (decide (s32 a > s32 b))) statOk) :=
  congrArg Host.Outcome.next (pureCommand_of_running hs _)

theorem exec_fxge (a b : Word) :
    exec (.fxge a b) s = .next (s.complete (boolWord (decide (s32 a ≥ s32 b))) statOk) :=
  congrArg Host.Outcome.next (pureCommand_of_running hs _)

theorem exec_menc8 (p : BitVec 8) :
    exec (.menc8 p) s = .next (s.complete (manEnc p false) statOk) :=
  congrArg Host.Outcome.next (pureCommand_of_running hs _)

theorem exec_menc8i (p : BitVec 8) :
    exec (.menc8i p) s = .next (s.complete (manEnc p true) statOk) :=
  congrArg Host.Outcome.next (pureCommand_of_running hs _)

theorem exec_menc16 (p : BitVec 16) :
    exec (.menc16 p) s = .next (s.complete (manEnc p false) statOk) :=
  congrArg Host.Outcome.next (pureCommand_of_running hs _)

theorem exec_menc16i (p : BitVec 16) :
    exec (.menc16i p) s = .next (s.complete (manEnc p true) statOk) :=
  congrArg Host.Outcome.next (pureCommand_of_running hs _)

theorem exec_mdec8 (p : BitVec 16) :
    exec (.mdec8 p) s = .next (s.complete (zext32 (manDec 8 p)) statOk) :=
  congrArg Host.Outcome.next (pureCommand_of_running hs _)

theorem exec_mdec16 (p : BitVec 32) :
    exec (.mdec16 p) s = .next (s.complete (zext32 (manDec 16 p)) statOk) :=
  congrArg Host.Outcome.next (pureCommand_of_running hs _)

end running

/-- A command of the LAMP range after teardown (R175). -/
theorem exec_lamp_tornDown {i : Instr} {s : State} (hl : i.isLamp = true) (hs : s.faultCause = 0#8)
    (ht : s.lifecycle = .tornDown) : exec i s = .next (s.raiseFault causeLampOff (commandWord i)) := by
  cases i with
  | lsetlevel | lgetlevel | lisfading | labort | lwaitfade | lsetcolor | lregister | lunregister | ld2n | ln2d
  | lteardown => exact congrArg _ (lampCommand_of_tornDown hs ht _ _)
  | _ => simp [Instr.isLamp, commandWord, encode, opcodeWord, fieldAt_eq_shift] at hl

section active

variable {s : State} (hs : s.faultCause = 0#8) (ha : s.lifecycle = .active)

include hs ha

theorem exec_lsetlevel (l : Level) (t : Word) : exec (.lsetlevel l t) s =
    .next (((s.setMLevel l).setEngine (s.eng.setLevel (dali2driver l) t)).complete 0#32 statOk) :=
  congrArg _ (lampCommand_of_active hs ha _ _)

theorem exec_lgetlevel : exec .lgetlevel s =
    .next (s.complete (zext32 (if s.eng.isFading then driver2dali s.eng.getLevel.toNat else s.mLevel)) statOk) :=
  congrArg _ (lampCommand_of_active hs ha _ _)

theorem exec_lisfading : exec .lisfading s = .next (s.complete (boolWord s.eng.isFading) statOk) :=
  congrArg _ (lampCommand_of_active hs ha _ _)

theorem exec_labort_fading (hf : s.eng.fading = true) : exec .labort s =
    .next (((s.setEngine s.eng.abortFading).setMLevel (driver2dali s.eng.level.toNat)).complete 0#32 statOk) := by
  have he : s.eng.abortFading.level = s.eng.level := by simp [Engine.abortFading, hf]
  simp only [exec, execLabort, lampCommand_of_active hs ha, Engine.isFading, Engine.getLevel, hf, he, if_true]

theorem exec_labort_idle (hf : s.eng.fading = false) : exec .labort s = .next (s.complete 0#32 statOk) := by
  simp [exec, execLabort, lampCommand_of_active hs ha, Engine.isFading, hf]

theorem exec_lwaitfade_fading (hf : s.eng.fading = true) : exec .lwaitfade s = .next s.hold := by
  simp [exec, execLwaitfade, lampCommand_of_active hs ha, Engine.isFading, hf]

theorem exec_lwaitfade_idle (hf : s.eng.fading = false) : exec .lwaitfade s = .next (s.complete 0#32 statOk) := by
  simp [exec, execLwaitfade, lampCommand_of_active hs ha, Engine.isFading, hf]

theorem exec_lsetcolor (r g b : Native) (t : Word) : exec (.lsetcolor r g b t) s =
    .next (((s.setColour ⟨r, g, b⟩).setEngine (s.eng.setColor ⟨r, g, b⟩ t)).complete 0#32 statOk) :=
  congrArg _ (lampCommand_of_active hs ha _ _)

theorem exec_lregister_of_some {id : Word} {ss : List Slot} (h : registerSlot id s.slots = some ss) :
    exec (.lregister id) s = .next ((s.setSlots ss).complete 0#32 statOk) := by
  simp [exec, execLregister, lampCommand_of_active hs ha, h]

theorem exec_lregister_of_none {id : Word} (h : registerSlot id s.slots = none) :
    exec (.lregister id) s = .next (s.complete 0#32 statCapacity) := by
  simp [exec, execLregister, lampCommand_of_active hs ha, h]

theorem exec_lunregister_of_some {id : Word} {ss : List Slot} (h : unregisterSlot id s.slots = some ss) :
    exec (.lunregister id) s = .next ((s.setSlots ss).complete 0#32 statOk) := by
  simp [exec, execLunregister, lampCommand_of_active hs ha, h]

theorem exec_lunregister_of_none {id : Word} (h : unregisterSlot id s.slots = none) :
    exec (.lunregister id) s = .next (s.complete 0#32 statNotRegistered) := by
  simp [exec, execLunregister, lampCommand_of_active hs ha, h]

theorem exec_ld2n (v : Level) : exec (.ld2n v) s = .next (s.complete (zext32 (dali2driver v)) statOk) :=
  congrArg _ (lampCommand_of_active hs ha _ _)

theorem exec_ln2d (d : BitVec 16) : exec (.ln2d d) s = .next (s.complete (zext32 (driver2dali d.toNat)) statOk) :=
  congrArg _ (lampCommand_of_active hs ha _ _)

theorem exec_lteardown : exec .lteardown s = .next (s.tearDown.complete 0#32 statOk) :=
  congrArg _ (lampCommand_of_active hs ha _ _)

end active

/-- What a completing LAMP command does to an active unit before its result is written: one of six effects, or none. -/
def LampEffect (i : Instr) (s u : State) : Prop :=
  u = s ∨
  (∃ l f, i = .lsetlevel l f ∧ u = (s.setMLevel l).setEngine (s.eng.setLevel (dali2driver l) f)) ∨
  (i = .labort ∧ s.eng.fading = true ∧
    u = (s.setEngine s.eng.abortFading).setMLevel (driver2dali s.eng.level.toNat)) ∨
  (∃ r g b f, i = .lsetcolor r g b f ∧
    u = (s.setColour ⟨r, g, b⟩).setEngine (s.eng.setColor ⟨r, g, b⟩ f)) ∨
  (∃ id ss, i = .lregister id ∧ registerSlot id s.slots = some ss ∧ u = s.setSlots ss) ∨
  (∃ id ss, i = .lunregister id ∧ unregisterSlot id s.slots = some ss ∧ u = s.setSlots ss) ∨
  (i = .lteardown ∧ u = s.tearDown)

/-- A LAMP command on an active unit holds, which is LWAITFADE during a fade, or completes with its effect. -/
theorem exec_lamp_active {i : Instr} {s t : State} (hl : i.isLamp = true) (hs : s.faultCause = 0#8)
    (ha : s.lifecycle = .active) (h : exec i s = .next t) :
    (i = .lwaitfade ∧ s.eng.fading = true ∧ t = s.hold) ∨
    ∃ u v c, LampEffect i s u ∧ t = u.complete v c ∧ (c = statOk ∨ c = statCapacity ∨ c = statNotRegistered) ∧
      (i = .lwaitfade → s.eng.fading = false) := by
  cases i with
  | lsetlevel l f =>
    rw [exec_lsetlevel hs ha] at h; cases h
    exact .inr ⟨_, _, _, .inr (.inl ⟨l, f, rfl, rfl⟩), rfl, .inl rfl, nofun⟩
  | lgetlevel =>
    rw [exec_lgetlevel hs ha] at h; cases h
    exact .inr ⟨_, _, _, .inl rfl, rfl, .inl rfl, nofun⟩
  | lisfading =>
    rw [exec_lisfading hs ha] at h; cases h
    exact .inr ⟨_, _, _, .inl rfl, rfl, .inl rfl, nofun⟩
  | labort =>
    cases hf : s.eng.fading with
    | true =>
      rw [exec_labort_fading hs ha hf] at h; cases h
      exact .inr ⟨_, _, _, .inr (.inr (.inl ⟨rfl, hf, rfl⟩)), rfl, .inl rfl, nofun⟩
    | false =>
      rw [exec_labort_idle hs ha hf] at h; cases h
      exact .inr ⟨_, _, _, .inl rfl, rfl, .inl rfl, nofun⟩
  | lwaitfade =>
    cases hf : s.eng.fading with
    | true =>
      rw [exec_lwaitfade_fading hs ha hf] at h; cases h
      exact .inl ⟨rfl, rfl, rfl⟩
    | false =>
      rw [exec_lwaitfade_idle hs ha hf] at h; cases h
      exact .inr ⟨_, _, _, .inl rfl, rfl, .inl rfl, fun _ => rfl⟩
  | lsetcolor r g b f =>
    rw [exec_lsetcolor hs ha] at h; cases h
    exact .inr ⟨_, _, _, .inr (.inr (.inr (.inl ⟨r, g, b, f, rfl, rfl⟩))), rfl, .inl rfl, nofun⟩
  | lregister id =>
    cases hr : registerSlot id s.slots with
    | some ss =>
      rw [exec_lregister_of_some hs ha hr] at h; cases h
      exact .inr ⟨_, _, _, .inr (.inr (.inr (.inr (.inl ⟨id, ss, rfl, hr, rfl⟩)))), rfl, .inl rfl, nofun⟩
    | none =>
      rw [exec_lregister_of_none hs ha hr] at h; cases h
      exact .inr ⟨_, _, _, .inl rfl, rfl, .inr (.inl rfl), nofun⟩
  | lunregister id =>
    cases hr : unregisterSlot id s.slots with
    | some ss =>
      rw [exec_lunregister_of_some hs ha hr] at h; cases h
      exact .inr ⟨_, _, _, .inr (.inr (.inr (.inr (.inr (.inl ⟨id, ss, rfl, hr, rfl⟩))))), rfl, .inl rfl, nofun⟩
    | none =>
      rw [exec_lunregister_of_none hs ha hr] at h; cases h
      exact .inr ⟨_, _, _, .inl rfl, rfl, .inr (.inr rfl), nofun⟩
  | ld2n v =>
    rw [exec_ld2n hs ha] at h; cases h
    exact .inr ⟨_, _, _, .inl rfl, rfl, .inl rfl, nofun⟩
  | ln2d d =>
    rw [exec_ln2d hs ha] at h; cases h
    exact .inr ⟨_, _, _, .inl rfl, rfl, .inl rfl, nofun⟩
  | lteardown =>
    rw [exec_lteardown hs ha] at h; cases h
    exact .inr ⟨_, _, _, .inr (.inr (.inr (.inr (.inr (.inr ⟨rfl, rfl⟩))))), rfl, .inl rfl, nofun⟩
  | _ => simp [Instr.isLamp, commandWord, encode, opcodeWord, fieldAt_eq_shift] at hl

/-- Everything a command can do on a block that is not faulted. -/
theorem exec_running_cases {i : Instr} {s t : State} (hs : s.faultCause = 0#8) (h : exec i s = .next t) :
    (i.isLamp = false ∧ ∃ v, t = s.complete v statOk) ∨
    (∃ a, i = .fxdiv a 0#32 ∧ t = s.raiseFault causeDivZero 0x06#32) ∨
    (i.isLamp = true ∧ s.lifecycle = .tornDown ∧ t = s.raiseFault causeLampOff (commandWord i)) ∨
    (i = .lwaitfade ∧ s.lifecycle = .active ∧ s.eng.fading = true ∧ t = s.hold) ∨
    (i.isLamp = true ∧ s.lifecycle = .active ∧
      ∃ u v c, LampEffect i s u ∧ t = u.complete v c ∧ (c = statOk ∨ c = statCapacity ∨ c = statNotRegistered) ∧
        (i = .lwaitfade → s.eng.fading = false)) := by
  cases hl : i.isLamp with
  | false =>
    rcases exec_pure hl with ⟨v, hv⟩ | ⟨a, ha, hv⟩
    · rw [hv s hs] at h; cases h
      exact .inl ⟨rfl, v, rfl⟩
    · rw [hv s hs] at h; cases h
      exact .inr (.inl ⟨a, ha, rfl⟩)
  | true =>
    rcases lifecycle_cases s with ha | ht
    · rcases exec_lamp_active hl hs ha h with ⟨hi, hf, ht⟩ | hu
      · exact .inr (.inr (.inr (.inl ⟨hi, ha, hf, ht⟩)))
      · exact .inr (.inr (.inr (.inr ⟨rfl, ha, hu⟩)))
    · rw [exec_lamp_tornDown hl hs ht] at h; cases h
      exact .inr (.inr (.inl ⟨rfl, ht, rfl⟩))

/-- What no effect of a LAMP command touches. -/
theorem LampEffect.frame {i : Instr} {s u : State} (h : LampEffect i s u) :
    u.res = s.res ∧ u.stat = s.stat ∧ u.faultCause = s.faultCause ∧ u.faultCmd = s.faultCmd ∧
    u.notify = s.notify ∧ u.turns = s.turns ∧ u.pending = s.pending ∧ u.holding = s.holding ∧ u.index = s.index := by
  rcases h with rfl | ⟨l, f, -, rfl⟩ | ⟨-, -, rfl⟩ | ⟨r, g, b, f, -, rfl⟩ | ⟨id, ss, -, -, rfl⟩ | ⟨id, ss, -, -, rfl⟩ |
    ⟨-, rfl⟩ <;> simp

end Sys2Proof.Machine
end

