-- ==== Sys2Proof/Laws/FixedPoint.lean ====
section
/-! SUPPORT. The exact-integer functions by the inequalities that fix them: rounding down, narrowing, and the rounded
quotient of R105. -/

namespace Sys2Proof.Machine

/-- Rounding down, for a positive divisor (R12). -/
theorem floorDiv_spec (n : Int) {d : Int} (hd : 0 < d) :
    floorDiv n d * d ≤ n ∧ n < (floorDiv n d + 1) * d := by
  unfold floorDiv
  rw [Int.fdiv_eq_ediv_of_nonneg _ hd.le]
  exact ⟨Int.ediv_mul_le n hd.ne', Int.lt_ediv_add_one_mul_self n hd⟩

/-- The integer those inequalities fix is the rounded quotient. -/
theorem floorDiv_eq {n d q : Int} (hd : 0 < d) (h1 : q * d ≤ n) (h2 : n < (q + 1) * d) : floorDiv n d = q := by
  unfold floorDiv
  rw [Int.fdiv_eq_ediv_of_nonneg _ hd.le]
  exact (Int.ediv_eq_iff_of_pos hd).2 ⟨h1, by linarith⟩

theorem floorDiv_nonneg {n d : Int} (hn : 0 ≤ n) (hd : 0 < d) : 0 ≤ floorDiv n d := by
  unfold floorDiv
  rw [Int.fdiv_eq_ediv_of_nonneg _ hd.le]
  exact Int.ediv_nonneg hn hd.le

theorem absInt_eq_natAbs (z : Int) : absInt z = z.natAbs := by
  unfold absInt
  split <;> omega

theorem absInt_pos {z : Int} (h : z ≠ 0) : 0 < absInt z := by
  rw [absInt_eq_natAbs]
  omega

/-- The bounds of a word read as s32 (R12). -/
theorem s32_bounds (v : Word) : -2147483648 ≤ s32 v ∧ s32 v ≤ 2147483647 := by
  have h1 := v.toInt_lt
  have h2 := v.le_toInt
  unfold s32
  omega

/-- Narrowing keeps an integer that fits (R12, R92). -/
theorem s32_wrap32_of_fits {z : Int} (h1 : -2147483648 ≤ z) (h2 : z ≤ 2147483647) : s32 (wrap32 z) = z := by
  unfold s32 wrap32
  rw [BitVec.toInt_ofInt, Int.bmod_def]
  omega

@[simp] theorem wrap32_s32 (v : Word) : wrap32 (s32 v) = v := by
  simp [s32, wrap32]

/-- The quotient of R105 under HALF_AWAY: a magnitude fixed by two inequalities, under the sign of the exact one. -/
theorem divRound_halfAway_form (n : Int) {b : Int} (hb : b ≠ 0) :
    ∃ m, 0 ≤ m ∧ m * absInt b ≤ absInt n + absInt b / 2 ∧ absInt n + absInt b / 2 < (m + 1) * absInt b ∧
      divRound .halfAway n b = if n < 0 ↔ b < 0 then m else -m := by
  have hB := absInt_pos hb
  have hN : 0 ≤ absInt n := by rw [absInt_eq_natAbs]; omega
  have hhalf : floorDiv (absInt b) 2 = absInt b / 2 := Int.fdiv_eq_ediv_of_nonneg _ (by decide)
  have hm := floorDiv_spec (absInt n + absInt b / 2) hB
  refine ⟨_, floorDiv_nonneg (by omega) hB, hm.1, hm.2, ?_⟩
  simp only [divRound, hhalf]
  by_cases hn : n = 0
  · subst n
    have h0 : floorDiv (absInt 0 + absInt b / 2) (absInt b) = 0 :=
      floorDiv_eq hB (by simp [absInt]; omega) (by simp [absInt] at *; omega)
    simp [h0]
  · simp [hn]

end Sys2Proof.Machine
end

