-- ==== Sys2Proof/Laws/Lamp.lean ====
section
/-! SUPPORT. The domain conversions as numbers, and what the slot operations do to a table of any length. -/

namespace Sys2Proof.Machine

theorem dali2driver_toNat (v : Level) : (dali2driver v).toNat = min ((v.toNat * 4096 + 32768) / 65536) 4095 := by
  unfold dali2driver
  rw [BitVec.toNat_ofNat]
  omega

theorem driver2dali_toNat (d : Nat) : (driver2dali d).toNat = min ((d * 65536 + 2048) / 4096) 65535 := by
  unfold driver2dali
  rw [BitVec.toNat_ofNat]
  omega

/-- The least empty slot takes the identity (R170). -/
theorem registerSlot_of_first_empty {id : Word} {before after : List Slot} {x : Slot}
    (hb : ∀ y ∈ before, y.valid = true) (hx : x.valid = false) :
    registerSlot id (before ++ x :: after) = some (before ++ ⟨true, id⟩ :: after) := by
  induction before with
  | nil => simp [registerSlot, hx]
  | cons y ys ih =>
    have hy : y.valid = true := hb y (by simp)
    have := ih fun z hz => hb z (by simp [hz])
    simp [registerSlot, hy, this]

/-- With no empty slot nothing is taken (R170). -/
theorem registerSlot_of_full {id : Word} {ss : List Slot} (h : ∀ y ∈ ss, y.valid = true) :
    registerSlot id ss = none := by
  induction ss with
  | nil => rfl
  | cons y ys ih =>
    have hy : y.valid = true := h y (by simp)
    simp [registerSlot, hy, ih fun z hz => h z (by simp [hz])]

/-- The least slot that is valid with the identity is emptied (R171). -/
theorem unregisterSlot_of_first_match {id : Word} {before after : List Slot}
    (hb : ∀ y ∈ before, y.valid = true → y.id ≠ id) :
    unregisterSlot id (before ++ ⟨true, id⟩ :: after) = some (before ++ ⟨false, 0#32⟩ :: after) := by
  induction before with
  | nil => simp [unregisterSlot]
  | cons y ys ih =>
    have hy : ¬ (y.valid = true ∧ y.id = id) := fun h => hb y (by simp) h.1 h.2
    have := ih fun z hz => hb z (by simp [hz])
    simp [unregisterSlot, hy, this]

/-- With no matching slot nothing is emptied (R171). -/
theorem unregisterSlot_of_no_match {id : Word} {ss : List Slot} (h : ∀ y ∈ ss, y.valid = true → y.id ≠ id) :
    unregisterSlot id ss = none := by
  induction ss with
  | nil => rfl
  | cons y ys ih =>
    have hy : ¬ (y.valid = true ∧ y.id = id) := fun hc => h y (by simp) hc.1 hc.2
    simp [unregisterSlot, hy, ih fun z hz => h z (by simp [hz])]

/-- Registering changes one empty slot into a valid one and keeps the table's length. -/
theorem registerSlot_cases {id : Word} {ss tt : List Slot} (h : registerSlot id ss = some tt) :
    ∃ before x after, ss = before ++ x :: after ∧ (∀ y ∈ before, y.valid = true) ∧ x.valid = false ∧
      tt = before ++ ⟨true, id⟩ :: after := by
  induction ss generalizing tt with
  | nil => simp [registerSlot] at h
  | cons y ys ih =>
    cases hy : y.valid with
    | false =>
      simp [registerSlot, hy] at h
      exact ⟨[], y, ys, by simp [hy, ← h]⟩
    | true =>
      simp only [registerSlot, hy, if_true, Option.map_eq_some_iff] at h
      obtain ⟨uu, hu, rfl⟩ := h
      obtain ⟨before, x, after, rfl, hb, hx, rfl⟩ := ih hu
      exact ⟨y :: before, x, after, rfl, by simpa [hy] using hb, hx, rfl⟩

/-- Unregistering empties one matching slot and keeps the table's length. -/
theorem unregisterSlot_cases {id : Word} {ss tt : List Slot} (h : unregisterSlot id ss = some tt) :
    ∃ before after, ss = before ++ ⟨true, id⟩ :: after ∧ (∀ y ∈ before, y.valid = true → y.id ≠ id) ∧
      tt = before ++ ⟨false, 0#32⟩ :: after := by
  induction ss generalizing tt with
  | nil => simp [unregisterSlot] at h
  | cons y ys ih =>
    by_cases hy : y.valid = true ∧ y.id = id
    · obtain ⟨v, j⟩ := y
      obtain ⟨rfl, rfl⟩ := hy
      simp [unregisterSlot] at h
      exact ⟨[], ys, by simp [← h]⟩
    · simp only [unregisterSlot, hy, if_false, Option.map_eq_some_iff] at h
      obtain ⟨uu, hu, rfl⟩ := h
      obtain ⟨before, after, rfl, hb, rfl⟩ := ih hu
      refine ⟨y :: before, after, rfl, ?_, rfl⟩
      intro z hz
      rcases List.mem_cons.1 hz with rfl | hz
      · exact fun hv he => hy ⟨hv, he⟩
      · exact hb z hz

end Sys2Proof.Machine
end

