-- ==== Sys2Proof/Laws/Manchester.lean ====
section
/-! SUPPORT. The two codec loops bit by bit: what encode leaves at each pattern bit, and what decode answers on a legal
and on an illegal pattern. -/

namespace Sys2Proof.Machine

theorem manSymbol_getLsbD (x : Bool) (j : Nat) :
    (manSymbol x).getLsbD j = if j = 0 then x else if j = 1 then !x else false := by
  by_cases hj : j < 32
  · revert hj
    cases x
    · have : ∀ j < 32, (manSymbol false).getLsbD j = if j = 0 then false else if j = 1 then !false else false := by decide
      exact this j
    · have : ∀ j < 32, (manSymbol true).getLsbD j = if j = 0 then true else if j = 1 then !true else false := by decide
      exact this j
  · rw [BitVec.getLsbD_of_ge _ _ (by omega), if_neg (by omega), if_neg (by omega)]

/-- The loop of R132 from bit `i`: the symbols of bits below `i`, and above them the accumulator it began with. -/
theorem encLoop_getLsbD {w : Nat} (p : BitVec w) (inv : Bool) (i : Nat) (acc : Word) (j : Nat) (hj : j < 32) :
    (encLoop p inv i acc).getLsbD j =
      if j < 2 * i then (if j % 2 = 0 then p.getLsbD (j / 2) ^^ inv else !(p.getLsbD (j / 2) ^^ inv))
      else acc.getLsbD (j - 2 * i) := by
  induction i generalizing acc with
  | zero => simp [encLoop]
  | succ i ih =>
    rw [encLoop, ih]
    by_cases h1 : j < 2 * i
    · rw [if_pos h1, if_pos (show j < 2 * (i + 1) by omega)]
    · rw [if_neg h1, BitVec.getLsbD_or, BitVec.getLsbD_shiftLeft, manSymbol_getLsbD]
      by_cases h2 : j < 2 * (i + 1)
      · have hd : j / 2 = i := by omega
        rw [if_pos h2, hd]
        rcases (by omega : j = 2 * i ∨ j = 2 * i + 1) with h | h
        · simp [show j - 2 * i = 0 by omega, show j % 2 = 0 by omega]
        · simp [show j - 2 * i = 1 by omega, show j % 2 = 1 by omega]
      · rw [if_neg h2]
        simp [show j - 2 * i < 32 by omega, show ¬ j - 2 * i < 2 by omega, show ¬ j - 2 * i = 0 by omega,
          show ¬ j - 2 * i = 1 by omega, show j - 2 * i - 2 = j - 2 * (i + 1) by omega]

theorem manEnc_getLsbD_even {w i : Nat} (p : BitVec w) (inv : Bool) (h : i < w) (hw : w ≤ 16) :
    (manEnc p inv).getLsbD (2 * i) = (p.getLsbD i ^^ inv) := by
  rw [manEnc, encLoop_getLsbD _ _ _ _ _ (by omega), if_pos (by omega), if_pos (by omega), show 2 * i / 2 = i by omega]

theorem manEnc_getLsbD_odd {w i : Nat} (p : BitVec w) (inv : Bool) (h : i < w) (hw : w ≤ 16) :
    (manEnc p inv).getLsbD (2 * i + 1) = !(p.getLsbD i ^^ inv) := by
  rw [manEnc, encLoop_getLsbD _ _ _ _ _ (by omega), if_pos (by omega), if_neg (by omega),
    show (2 * i + 1) / 2 = i by omega]

theorem manEnc_getLsbD_above {w j : Nat} (p : BitVec w) (inv : Bool) (h : 2 * w ≤ j) (hj : j < 32) :
    (manEnc p inv).getLsbD j = true := by
  rw [manEnc, encLoop_getLsbD _ _ _ _ _ hj, if_neg (by omega)]
  have : ∀ j < 32, (0xFFFFFFFF#32).getLsbD j = true := by decide
  exact this _ (by omega)

/-- The symbol decode reads at position `i`, by its two bits. -/
theorem symbol_eq_iff {n : Nat} (p : BitVec n) (i : Nat) :
    (p.extractLsb' (2 * i) 2 = 0b10#2 ↔ p.getLsbD (2 * i) = false ∧ p.getLsbD (2 * i + 1) = true) ∧
    (p.extractLsb' (2 * i) 2 = 0b01#2 ↔ p.getLsbD (2 * i) = true ∧ p.getLsbD (2 * i + 1) = false) := by
  have h : ∀ s : BitVec 2, (s = 0b10#2 ↔ s.getLsbD 0 = false ∧ s.getLsbD 1 = true) ∧
      (s = 0b01#2 ↔ s.getLsbD 0 = true ∧ s.getLsbD 1 = false) := by decide
  have h0 : (p.extractLsb' (2 * i) 2).getLsbD 0 = p.getLsbD (2 * i) := by
    rw [BitVec.getLsbD_extractLsb']; simp
  have h1 : (p.extractLsb' (2 * i) 2).getLsbD 1 = p.getLsbD (2 * i + 1) := by
    rw [BitVec.getLsbD_extractLsb']; simp
  rw [← h0, ← h1]
  exact h _

/-- R139: a symbol with two equal bits ends decode with the marker. -/
theorem decLoop_of_illegal {n : Nat} (p : BitVec n) (i : Nat) (out : BitVec 16)
    (h : ∃ k, k < i ∧ p.getLsbD (2 * k) = p.getLsbD (2 * k + 1)) : decLoop p i out = Config.manInvalid := by
  induction i generalizing out with
  | zero => obtain ⟨k, hk, -⟩ := h; omega
  | succ i ih =>
    obtain ⟨k, hk, he⟩ := h
    have hs := symbol_eq_iff p i
    by_cases hki : k = i
    · subst hki
      simp only [decLoop, hs.1, hs.2, he]
      cases p.getLsbD (2 * k + 1) <;> simp
    · have hi : ∃ k, k < i ∧ p.getLsbD (2 * k) = p.getLsbD (2 * k + 1) := ⟨k, by omega, he⟩
      simp only [decLoop]
      split
      · exact ih _ hi
      · split
        · exact ih _ hi
        · rfl

/-- R139: with every symbol legal, decode's bit `j` is pattern bit `2 j`. -/
theorem decLoop_getLsbD {n : Nat} (p : BitVec n) (i : Nat) (out : BitVec 16) (hi : i ≤ 16)
    (h : ∀ k, k < i → p.getLsbD (2 * k) ≠ p.getLsbD (2 * k + 1)) (j : Nat) (hj : j < 16) :
    (decLoop p i out).getLsbD j = if j < i then p.getLsbD (2 * j) else out.getLsbD (j - i) := by
  induction i generalizing out with
  | zero => simp [decLoop]
  | succ i ih =>
    have hs := symbol_eq_iff p i
    have hne := h i (by omega)
    have hrec := fun out => ih out (by omega) (fun k hk => h k (by omega))
    have hplus : (out <<< 1) + 1#16 = (out <<< 1) ||| 1#16 := by
      have : (out <<< 1) &&& 1#16 = 0#16 := by
        apply BitVec.eq_of_getLsbD_eq
        intro k hk
        rcases k with _ | k <;> simp
      exact BitVec.add_eq_or_of_and_eq_zero _ _ this
    have hshift : ∀ b : Bool, ¬ j < i →
        (((out <<< 1) ||| (if b then 1#16 else 0#16)).getLsbD (j - i)) =
          if j = i then b else out.getLsbD (j - (i + 1)) := by
      intro b h1
      rw [BitVec.getLsbD_or, BitVec.getLsbD_shiftLeft]
      by_cases h2 : j = i
      · subst h2; cases b <;> simp
      · rw [if_neg h2, show j - i - 1 = j - (i + 1) by omega]
        cases b
        · simp [show j - i < 16 by omega, show ¬ j - i < 1 by omega]
        · simp [show j - i < 16 by omega, show ¬ j - i < 1 by omega]
          omega
    have hstep : decLoop p (i + 1) out =
        decLoop p i ((out <<< 1) ||| (if p.getLsbD (2 * i) then 1#16 else 0#16)) := by
      simp only [decLoop, hs.1, hs.2]
      cases hb : p.getLsbD (2 * i) <;> cases hb1 : p.getLsbD (2 * i + 1) <;> simp [hb, hb1, hplus] at hne ⊢
    rw [hstep, hrec]
    by_cases h1 : j < i
    · rw [if_pos h1, if_pos (by omega)]
    · rw [if_neg h1, hshift _ h1]
      by_cases h2 : j = i
      · rw [if_pos h2, if_pos (by omega), h2]
      · rw [if_neg h2, if_neg (by omega)]

end Sys2Proof.Machine
end

