-- ==== Sys2Proof/Laws/PerInstr.lean ====
section
/-! SUPPORT. Said of every command by itself: its words are the canonical ones of its line (R70, R74, R79). -/

namespace Sys2Proof.Laws.Canonical

/-- The command is well formed, its word has `RSV` 0, and its word's opcode is the one its line names. -/
def Statement (i : Instr) : Prop :=
  i.wellFormed = true ∧ rsvField (encode i).cmd = 0#24 ∧ opcField (encode i).cmd = i.line.opc

/-- A word read as s32 fits a field read as s32. -/
theorem fits_signed (f : Field) (hs : f.signed = true) (p : Word) : f.fits p.toInt = true := by
  have h1 := p.toInt_lt
  have h2 := p.le_toInt
  rw [Field.fits, if_pos hs, decide_eq_true_eq]
  omega

/-- A value of the field's width fits an unsigned field. -/
theorem fits_unsigned (f : Field) {n : Nat} (hs : f.signed = false) (hw : f.width = n) (p : BitVec n) :
    f.fits p.toNat = true := by
  have h : p.toNat < Nat.pow 2 n := p.isLt
  rw [Field.fits, hs, if_neg Bool.false_ne_true, decide_eq_true_eq, hw]
  omega

/-- Operands fit fields one by one. -/
theorem fitAll_cons {f : Field} {v : Int} {fs : List Field} {vs : List Int} (h : f.fits v = true)
    (hs : fitAll fs vs = true) : fitAll (f :: fs) (v :: vs) = true := by
  rw [fitAll, h, hs]
  rfl

/-- A command is well formed when its operands fit the fields of its opcode. -/
theorem wellFormed_of_fit {i : Instr} (fs : List Field) (hf : fieldsOf i.line.opc = some fs)
    (h : fitAll fs i.line.operands = true) : i.wellFormed = true := by
  rw [Instr.wellFormed, AsmLine.wellFormed, hf]
  exact h

theorem fxfromint (a : Word) : Statement (.fxfromint a) :=
  ⟨wellFormed_of_fit _ rfl (fitAll_cons (fits_signed _ rfl a) rfl),
    rsvField_opcodeWord _, opcField_opcodeWord _⟩

theorem fxtoint (a : Word) : Statement (.fxtoint a) :=
  ⟨wellFormed_of_fit _ rfl (fitAll_cons (fits_signed _ rfl a) rfl),
    rsvField_opcodeWord _, opcField_opcodeWord _⟩

theorem fxadd (a b : Word) : Statement (.fxadd a b) :=
  ⟨wellFormed_of_fit _ rfl (fitAll_cons (fits_signed _ rfl a) (fitAll_cons (fits_signed _ rfl b) rfl)),
    rsvField_opcodeWord _, opcField_opcodeWord _⟩

theorem fxsub (a b : Word) : Statement (.fxsub a b) :=
  ⟨wellFormed_of_fit _ rfl (fitAll_cons (fits_signed _ rfl a) (fitAll_cons (fits_signed _ rfl b) rfl)),
    rsvField_opcodeWord _, opcField_opcodeWord _⟩

theorem fxmul (a b : Word) : Statement (.fxmul a b) :=
  ⟨wellFormed_of_fit _ rfl (fitAll_cons (fits_signed _ rfl a) (fitAll_cons (fits_signed _ rfl b) rfl)),
    rsvField_opcodeWord _, opcField_opcodeWord _⟩

theorem fxdiv (a b : Word) : Statement (.fxdiv a b) :=
  ⟨wellFormed_of_fit _ rfl (fitAll_cons (fits_signed _ rfl a) (fitAll_cons (fits_signed _ rfl b) rfl)),
    rsvField_opcodeWord _, opcField_opcodeWord _⟩

theorem fxeq (a b : Word) : Statement (.fxeq a b) :=
  ⟨wellFormed_of_fit _ rfl (fitAll_cons (fits_signed _ rfl a) (fitAll_cons (fits_signed _ rfl b) rfl)),
    rsvField_opcodeWord _, opcField_opcodeWord _⟩

theorem fxne (a b : Word) : Statement (.fxne a b) :=
  ⟨wellFormed_of_fit _ rfl (fitAll_cons (fits_signed _ rfl a) (fitAll_cons (fits_signed _ rfl b) rfl)),
    rsvField_opcodeWord _, opcField_opcodeWord _⟩

theorem fxlt (a b : Word) : Statement (.fxlt a b) :=
  ⟨wellFormed_of_fit _ rfl (fitAll_cons (fits_signed _ rfl a) (fitAll_cons (fits_signed _ rfl b) rfl)),
    rsvField_opcodeWord _, opcField_opcodeWord _⟩

theorem fxle (a b : Word) : Statement (.fxle a b) :=
  ⟨wellFormed_of_fit _ rfl (fitAll_cons (fits_signed _ rfl a) (fitAll_cons (fits_signed _ rfl b) rfl)),
    rsvField_opcodeWord _, opcField_opcodeWord _⟩

theorem fxgt (a b : Word) : Statement (.fxgt a b) :=
  ⟨wellFormed_of_fit _ rfl (fitAll_cons (fits_signed _ rfl a) (fitAll_cons (fits_signed _ rfl b) rfl)),
    rsvField_opcodeWord _, opcField_opcodeWord _⟩

theorem fxge (a b : Word) : Statement (.fxge a b) :=
  ⟨wellFormed_of_fit _ rfl (fitAll_cons (fits_signed _ rfl a) (fitAll_cons (fits_signed _ rfl b) rfl)),
    rsvField_opcodeWord _, opcField_opcodeWord _⟩

theorem menc8 (a : BitVec 8) : Statement (.menc8 a) :=
  ⟨wellFormed_of_fit _ rfl (fitAll_cons (fits_unsigned Fields.aByte rfl rfl a) rfl),
    rsvField_opcodeWord _, opcField_opcodeWord _⟩

theorem menc8i (a : BitVec 8) : Statement (.menc8i a) :=
  ⟨wellFormed_of_fit _ rfl (fitAll_cons (fits_unsigned Fields.aByte rfl rfl a) rfl),
    rsvField_opcodeWord _, opcField_opcodeWord _⟩

theorem menc16 (a : BitVec 16) : Statement (.menc16 a) :=
  ⟨wellFormed_of_fit _ rfl (fitAll_cons (fits_unsigned Fields.aHalf rfl rfl a) rfl),
    rsvField_opcodeWord _, opcField_opcodeWord _⟩

theorem menc16i (a : BitVec 16) : Statement (.menc16i a) :=
  ⟨wellFormed_of_fit _ rfl (fitAll_cons (fits_unsigned Fields.aHalf rfl rfl a) rfl),
    rsvField_opcodeWord _, opcField_opcodeWord _⟩

theorem mdec8 (a : BitVec 16) : Statement (.mdec8 a) :=
  ⟨wellFormed_of_fit _ rfl (fitAll_cons (fits_unsigned Fields.aHalf rfl rfl a) rfl),
    rsvField_opcodeWord _, opcField_opcodeWord _⟩

theorem mdec16 (a : BitVec 32) : Statement (.mdec16 a) :=
  ⟨wellFormed_of_fit _ rfl (fitAll_cons (fits_unsigned Fields.aWord rfl rfl a) rfl),
    rsvField_opcodeWord _, opcField_opcodeWord _⟩

theorem lsetlevel (l : Level) (t : Word) : Statement (.lsetlevel l t) :=
  ⟨wellFormed_of_fit _ rfl (fitAll_cons (fits_unsigned Fields.aHalf rfl rfl l)
      (fitAll_cons (fits_unsigned Fields.bWord rfl rfl t) rfl)),
    rsvField_opcodeWord _, opcField_opcodeWord _⟩

theorem lgetlevel : Statement .lgetlevel :=
  ⟨rfl, rsvField_opcodeWord _, opcField_opcodeWord _⟩

theorem lisfading : Statement .lisfading :=
  ⟨rfl, rsvField_opcodeWord _, opcField_opcodeWord _⟩

theorem labort : Statement .labort :=
  ⟨rfl, rsvField_opcodeWord _, opcField_opcodeWord _⟩

theorem lwaitfade : Statement .lwaitfade :=
  ⟨rfl, rsvField_opcodeWord _, opcField_opcodeWord _⟩

theorem lsetcolor (r g b : Native) (t : Word) : Statement (.lsetcolor r g b t) :=
  ⟨wellFormed_of_fit _ rfl (fitAll_cons (fits_unsigned Fields.aRed rfl rfl r)
      (fitAll_cons (fits_unsigned Fields.aGreen rfl rfl g)
      (fitAll_cons (fits_unsigned Fields.bBlue rfl rfl b) (fitAll_cons (fits_unsigned Fields.cWord rfl rfl t) rfl)))),
    rsvField_opcodeWord _, opcField_opcodeWord _⟩

theorem lregister (a : Word) : Statement (.lregister a) :=
  ⟨wellFormed_of_fit _ rfl (fitAll_cons (fits_unsigned Fields.aWord rfl rfl a) rfl),
    rsvField_opcodeWord _, opcField_opcodeWord _⟩

theorem lunregister (a : Word) : Statement (.lunregister a) :=
  ⟨wellFormed_of_fit _ rfl (fitAll_cons (fits_unsigned Fields.aWord rfl rfl a) rfl),
    rsvField_opcodeWord _, opcField_opcodeWord _⟩

theorem ld2n (a : Level) : Statement (.ld2n a) :=
  ⟨wellFormed_of_fit _ rfl (fitAll_cons (fits_unsigned Fields.aHalf rfl rfl a) rfl),
    rsvField_opcodeWord _, opcField_opcodeWord _⟩

theorem ln2d (a : BitVec 16) : Statement (.ln2d a) :=
  ⟨wellFormed_of_fit _ rfl (fitAll_cons (fits_unsigned Fields.aHalf rfl rfl a) rfl),
    rsvField_opcodeWord _, opcField_opcodeWord _⟩

theorem lteardown : Statement .lteardown :=
  ⟨rfl, rsvField_opcodeWord _, opcField_opcodeWord _⟩

end Sys2Proof.Laws.Canonical
end

