-- ==== Sys2Proof/Laws/Step.lean ====
section
/-! SUPPORT. What one step can do, said once: whose turn it is, and what that agent does. -/

namespace Sys2Proof.Machine

@[simp] theorem turnTaken_res (s : State) : s.turnTaken.res = s.res := rfl
@[simp] theorem turnTaken_stat (s : State) : s.turnTaken.stat = s.stat := rfl
@[simp] theorem turnTaken_faultCause (s : State) : s.turnTaken.faultCause = s.faultCause := rfl
@[simp] theorem turnTaken_faultCmd (s : State) : s.turnTaken.faultCmd = s.faultCmd := rfl
@[simp] theorem turnTaken_lifecycle (s : State) : s.turnTaken.lifecycle = s.lifecycle := rfl
@[simp] theorem turnTaken_mLevel (s : State) : s.turnTaken.mLevel = s.mLevel := rfl
@[simp] theorem turnTaken_colR (s : State) : s.turnTaken.colR = s.colR := rfl
@[simp] theorem turnTaken_colG (s : State) : s.turnTaken.colG = s.colG := rfl
@[simp] theorem turnTaken_colB (s : State) : s.turnTaken.colB = s.colB := rfl
@[simp] theorem turnTaken_slots (s : State) : s.turnTaken.slots = s.slots := rfl
@[simp] theorem turnTaken_eng (s : State) : s.turnTaken.eng = s.eng := rfl
@[simp] theorem turnTaken_notify (s : State) : s.turnTaken.notify = s.notify := rfl
@[simp] theorem turnTaken_pending (s : State) : s.turnTaken.pending = s.pending := rfl
@[simp] theorem turnTaken_holding (s : State) : s.turnTaken.holding = s.holding := rfl
@[simp] theorem turnTaken_index (s : State) : s.turnTaken.index = s.index := rfl
@[simp] theorem turnTaken_turns (s : State) : s.turnTaken.turns = s.turns.tail := rfl

/-- The first listed turn comes next. -/
theorem nextTurn_of_cons {s : State} {x : Turn} {xs : List Turn} (h : s.turns = x :: xs) : s.nextTurn = x := by
  simp [State.nextTurn, h]

/-- With no turn listed the engine runs a fade on (log 17). -/
theorem nextTurn_of_fading {s : State} (h : s.turns = []) (he : s.eng.enabled = true) (hf : s.eng.fading = true) :
    s.nextTurn = .engineStep (Config.liveLevel s.draws) := by
  simp [State.nextTurn, h, Engine.ready, he, hf]

/-- With no turn listed and no engine step enabled the host moves. -/
theorem nextTurn_of_idle {s : State} (h : s.turns = []) (he : s.eng.enabled = false ∨ s.eng.fading = false) :
    s.nextTurn = .host := by
  rcases he with he | he <;> simp [State.nextTurn, h, Engine.ready, he]

theorem turnTaken_of_cons {s : State} {x : Turn} {xs : List Turn} (h : s.turns = x :: xs) :
    s.turnTaken = { s with turns := xs } := by
  simp [State.turnTaken, h]

theorem turnTaken_of_fading {s : State} (h : s.turns = []) (he : s.eng.enabled = true) (hf : s.eng.fading = true) :
    s.turnTaken = { s with draws := s.draws + 1 } := by
  simp [State.turnTaken, h, Engine.ready, he, hf]

theorem turnTaken_of_idle {s : State} (h : s.turns = []) (he : s.eng.enabled = false ∨ s.eng.fading = false) :
    s.turnTaken = s := by
  cases s
  rcases he with he | he <;> simp_all [State.turnTaken, Engine.ready]

/-- The host's turn draws nothing. -/
theorem turnTaken_draws_of_host {s : State} (h : s.nextTurn = .host) : s.turnTaken.draws = s.draws := by
  unfold State.nextTurn at h
  unfold State.turnTaken
  split at h
  · next ht => simp [ht]
  · split at h
    · cases h
    · next hr => simp [hr]

/-- An event's step either appends the dispatch's records or changes nothing (R212, R222). -/
theorem engineEvent_cases (e : Byte) (s : State) :
    (s.eng.enabled = true ∧ s.faultCause = 0#8 ∧ s.lifecycle = .active ∧
      s.engineEvent e = { s with notify := s.notify ++ noticesFor e s.slots }) ∨
    ((s.eng.enabled = false ∨ s.faultCause ≠ 0#8 ∨ s.lifecycle = .tornDown) ∧ s.engineEvent e = s) := by
  unfold State.engineEvent State.dispatch
  by_cases he : s.eng.enabled = true
  · by_cases hf : s.faultCause = 0#8
    · rcases lifecycle_cases s with ha | ht
      · exact .inl ⟨he, hf, ha, by simp [he, (faulted_eq_false_iff s).2 hf, ha]⟩
      · exact .inr ⟨.inr (.inr ht), by simp [he, ht]⟩
    · exact .inr ⟨.inr (.inl hf), by simp [he, (faulted_eq_true_iff s).2 hf]⟩
  · exact .inr ⟨.inl (by simpa using he), by simp [he]⟩

@[simp] theorem engineEvent_res (e : Byte) (s : State) : (s.engineEvent e).res = s.res := by
  rcases engineEvent_cases e s with ⟨-, -, -, h⟩ | ⟨-, h⟩ <;> rw [h]

@[simp] theorem engineEvent_stat (e : Byte) (s : State) : (s.engineEvent e).stat = s.stat := by
  rcases engineEvent_cases e s with ⟨-, -, -, h⟩ | ⟨-, h⟩ <;> rw [h]

@[simp] theorem engineEvent_faultCause (e : Byte) (s : State) : (s.engineEvent e).faultCause = s.faultCause := by
  rcases engineEvent_cases e s with ⟨-, -, -, h⟩ | ⟨-, h⟩ <;> rw [h]

@[simp] theorem engineEvent_faultCmd (e : Byte) (s : State) : (s.engineEvent e).faultCmd = s.faultCmd := by
  rcases engineEvent_cases e s with ⟨-, -, -, h⟩ | ⟨-, h⟩ <;> rw [h]

@[simp] theorem engineEvent_lifecycle (e : Byte) (s : State) : (s.engineEvent e).lifecycle = s.lifecycle := by
  rcases engineEvent_cases e s with ⟨-, -, -, h⟩ | ⟨-, h⟩ <;> rw [h]

@[simp] theorem engineEvent_mLevel (e : Byte) (s : State) : (s.engineEvent e).mLevel = s.mLevel := by
  rcases engineEvent_cases e s with ⟨-, -, -, h⟩ | ⟨-, h⟩ <;> rw [h]

@[simp] theorem engineEvent_colR (e : Byte) (s : State) : (s.engineEvent e).colR = s.colR := by
  rcases engineEvent_cases e s with ⟨-, -, -, h⟩ | ⟨-, h⟩ <;> rw [h]

@[simp] theorem engineEvent_colG (e : Byte) (s : State) : (s.engineEvent e).colG = s.colG := by
  rcases engineEvent_cases e s with ⟨-, -, -, h⟩ | ⟨-, h⟩ <;> rw [h]

@[simp] theorem engineEvent_colB (e : Byte) (s : State) : (s.engineEvent e).colB = s.colB := by
  rcases engineEvent_cases e s with ⟨-, -, -, h⟩ | ⟨-, h⟩ <;> rw [h]

@[simp] theorem engineEvent_slots (e : Byte) (s : State) : (s.engineEvent e).slots = s.slots := by
  rcases engineEvent_cases e s with ⟨-, -, -, h⟩ | ⟨-, h⟩ <;> rw [h]

@[simp] theorem engineEvent_eng (e : Byte) (s : State) : (s.engineEvent e).eng = s.eng := by
  rcases engineEvent_cases e s with ⟨-, -, -, h⟩ | ⟨-, h⟩ <;> rw [h]

@[simp] theorem engineEvent_pending (e : Byte) (s : State) : (s.engineEvent e).pending = s.pending := by
  rcases engineEvent_cases e s with ⟨-, -, -, h⟩ | ⟨-, h⟩ <;> rw [h]

@[simp] theorem engineEvent_holding (e : Byte) (s : State) : (s.engineEvent e).holding = s.holding := by
  rcases engineEvent_cases e s with ⟨-, -, -, h⟩ | ⟨-, h⟩ <;> rw [h]

@[simp] theorem engineEvent_index (e : Byte) (s : State) : (s.engineEvent e).index = s.index := by
  rcases engineEvent_cases e s with ⟨-, -, -, h⟩ | ⟨-, h⟩ <;> rw [h]

@[simp] theorem engineEvent_turns (e : Byte) (s : State) : (s.engineEvent e).turns = s.turns := by
  rcases engineEvent_cases e s with ⟨-, -, -, h⟩ | ⟨-, h⟩ <;> rw [h]

@[simp] theorem engineEvent_draws (e : Byte) (s : State) : (s.engineEvent e).draws = s.draws := by
  rcases engineEvent_cases e s with ⟨-, -, -, h⟩ | ⟨-, h⟩ <;> rw [h]

/-- The host's turn, with what the command at its index does (R24, R76). -/
theorem hostTurn_cases {s t : State} (h : hostTurn s = .next t) :
    (s.pending = [] ∧ t = s) ∨
    ∃ k ks, s.pending = k :: ks ∧
      ((∃ i, decode k = .ok i ∧ exec i s = .next t) ∨
       (∃ r, decode k = .error r ∧ t = illegalCommand k.cmd s)) := by
  unfold hostTurn State.fetch at h
  cases hp : s.pending with
  | nil =>
    rw [hp] at h
    exact .inl ⟨rfl, by cases h; rfl⟩
  | cons k ks =>
    rw [hp] at h
    refine .inr ⟨k, ks, rfl, ?_⟩
    simp only [List.head?_cons, stepCommand] at h
    cases hd : decode k with
    | ok i => rw [hd] at h; exact .inl ⟨i, rfl, h⟩
    | error r => rw [hd] at h; exact .inr ⟨r, rfl, by cases h; rfl⟩

/-- Whose step it was. -/
theorem step_cases {s t : State} (h : step s = .next t) :
    (s.nextTurn = .host ∧ hostTurn s.turnTaken = .next t) ∨
    (∃ live, s.nextTurn = .engineStep live ∧ t = s.turnTaken.setEngine (s.eng.timeStep live)) ∨
    (∃ e, s.nextTurn = .engineEvent e ∧ t = s.turnTaken.engineEvent e) ∨
    (s.nextTurn = .reset ∧ t = s.turnTaken.resetStep) := by
  unfold step nextStep at h
  cases hx : s.nextTurn with
  | host => rw [hx] at h; exact .inl ⟨rfl, h⟩
  | engineStep live => rw [hx] at h; cases h; exact .inr (.inl ⟨live, rfl, rfl⟩)
  | engineEvent e => rw [hx] at h; cases h; exact .inr (.inr (.inl ⟨e, rfl, rfl⟩))
  | reset => rw [hx] at h; cases h; exact .inr (.inr (.inr ⟨rfl, rfl⟩))

/-- The step is the coming turn's. -/
theorem step_of_nextTurn {s : State} {x : Turn} (h : s.nextTurn = x) : step s = takeTurn x s.turnTaken := by
  rw [step, nextStep, h]

theorem step_of_turn {s : State} {x : Turn} {xs : List Turn} (h : s.turns = x :: xs) :
    step s = takeTurn x { s with turns := xs } := by
  rw [step_of_nextTurn (nextTurn_of_cons h), turnTaken_of_cons h]

/-- With no turn listed and no engine step enabled the host moves. -/
theorem step_of_idle {s : State} (h : s.turns = []) (he : s.eng.enabled = false ∨ s.eng.fading = false) :
    step s = hostTurn s := by
  rw [step_of_nextTurn (nextTurn_of_idle h he), turnTaken_of_idle h he]
  rfl

/-- With no turn listed a fade runs on (log 17). -/
theorem step_of_fading {s : State} (h : s.turns = []) (he : s.eng.enabled = true) (hf : s.eng.fading = true) :
    step s = .next ({ s with draws := s.draws + 1 }.setEngine (s.eng.timeStep (Config.liveLevel s.draws))) := by
  rw [step_of_nextTurn (nextTurn_of_fading h he hf), turnTaken_of_fading h he hf]
  rfl

theorem hostTurn_of_decode_ok {s : State} {k : Command} {ks : List Command} {i : Instr} (hp : s.pending = k :: ks)
    (hd : decode k = .ok i) : hostTurn s = exec i s := by
  simp [hostTurn, State.fetch, hp, stepCommand, hd]

theorem hostTurn_of_decode_error {s : State} {k : Command} {ks : List Command} {r : Rejection}
    (hp : s.pending = k :: ks) (hd : decode k = .error r) : hostTurn s = .next (illegalCommand k.cmd s) := by
  simp [hostTurn, State.fetch, hp, stepCommand, hd]

theorem hostTurn_of_no_command {s : State} (hp : s.pending = []) : hostTurn s = .next s := by
  simp [hostTurn, State.fetch, hp]

/-- Every host turn ends in a next state. -/
theorem hostTurn_next (s : State) : ∃ t, hostTurn s = .next t := by
  cases hp : s.pending with
  | nil => exact ⟨s, hostTurn_of_no_command hp⟩
  | cons k ks =>
    cases hd : decode k with
    | ok i => rw [hostTurn_of_decode_ok hp hd]; exact exec_next i s
    | error r => exact ⟨_, hostTurn_of_decode_error hp hd⟩

/-- Every step ends in a next state. -/
theorem step_next (s : State) : ∃ t, step s = .next t := by
  rw [step, nextStep]
  cases s.nextTurn with
  | host => exact hostTurn_next s.turnTaken
  | engineStep live => exact ⟨_, rfl⟩
  | engineEvent e => exact ⟨_, rfl⟩
  | reset => exact ⟨_, rfl⟩

/-- A run goes on from the next state. -/
theorem run_succ {n : Nat} {s u : State} (h : step s = .next u) : core.run (n + 1) s = core.run n u := by
  have hc : core.step s = .next u := h
  simp only [Host.Core.run]
  simp only [hc]

end Sys2Proof.Machine
end

