-- ==== Sys2Proof/Tests/Slice0.lean ====
section
/-! SUPPORT. The model's own tests. Words are written out from R70, R73 and R74; expected results are the worked
examples of R79 and the vectors of 95_test_vectors.md, each named by its table or number there. At the end, for each
obligation with hypotheses, a concrete state and operands that meet them all. -/

set_option Elab.async false

namespace Sys2Proof.Tests

open Sys2Proof.Machine

/-! ## Decoding, every row of R73 -/

/-- The instruction of a command word with `A`, `B`, `C`. -/
def readWord (cmd a b c : Nat) : Option Instr :=
  (decode ⟨BitVec.ofNat 32 cmd, BitVec.ofNat 32 a, BitVec.ofNat 32 b, BitVec.ofNat 32 c⟩).toOption

theorem test_decode_fxp_conversions :
    readWord 0x00000001 0xFFFFFFFB 7 7 = some (.fxfromint 0xFFFFFFFB#32) ∧
    readWord 0x00000002 0x70000000 7 7 = some (.fxtoint 0x70000000#32) := by decide

theorem test_decode_fxp_arithmetic :
    readWord 0x00000003 0x7FFFFFFF 1 7 = some (.fxadd 0x7FFFFFFF#32 1#32) ∧
    readWord 0x00000004 0 0x80000000 7 = some (.fxsub 0#32 0x80000000#32) ∧
    readWord 0x00000005 0x30000000 0x10000000 0 = some (.fxmul 0x30000000#32 0x10000000#32) ∧
    readWord 0x00000006 0x20000000 0x60000000 7 = some (.fxdiv 0x20000000#32 0x60000000#32) := by decide

theorem test_decode_fxp_comparisons :
    readWord 0x00000008 1 2 3 = some (.fxeq 1#32 2#32) ∧ readWord 0x00000009 1 2 3 = some (.fxne 1#32 2#32) ∧
    readWord 0x0000000A 1 2 3 = some (.fxlt 1#32 2#32) ∧ readWord 0x0000000B 1 2 3 = some (.fxle 1#32 2#32) ∧
    readWord 0x0000000C 1 2 3 = some (.fxgt 1#32 2#32) ∧ readWord 0x0000000D 1 2 3 = some (.fxge 1#32 2#32) := by
  decide

/-- Bits of `A` above the payload or pattern are ignored (R74). -/
theorem test_decode_man :
    readWord 0x00000020 0x000001FF 0 0 = some (.menc8 0xFF#8) ∧
    readWord 0x00000021 0xFFFFFFA5 0 0 = some (.menc8i 0xA5#8) ∧
    readWord 0x00000022 0xFFFF1234 0 0 = some (.menc16 0x1234#16) ∧
    readWord 0x00000023 0x00018001 0 0 = some (.menc16i 0x8001#16) ∧
    readWord 0x00000024 0x12346699 0 0 = some (.mdec8 0x6699#16) ∧
    readWord 0x00000026 0xA9A6A59A 0 0 = some (.mdec16 0xA9A6A59A#32) := by decide

theorem test_decode_lamp_level :
    readWord 0x00000040 0xFFFF8000 0x000003E8 7 = some (.lsetlevel 32768#16 1000#32) ∧
    readWord 0x00000041 1 2 3 = some .lgetlevel ∧ readWord 0x00000042 1 2 3 = some .lisfading ∧
    readWord 0x00000043 1 2 3 = some .labort ∧ readWord 0x00000044 1 2 3 = some .lwaitfade := by decide

/-- R79's example, and the same with every bit outside the fields at 1. -/
theorem test_decode_lamp_colour :
    readWord 0x00000045 0x08000FFF 0x00000000 0x00000064 = some (.lsetcolor 4095#12 2048#12 0#12 100#32) ∧
    readWord 0x00000045 0xF800FFFF 0xFFFFF000 0x00000064 = some (.lsetcolor 4095#12 2048#12 0#12 100#32) := by decide

theorem test_decode_lamp_rest :
    readWord 0x00000046 0xFFFFFFFF 0 0 = some (.lregister 0xFFFFFFFF#32) ∧
    readWord 0x00000047 0x80000007 0 0 = some (.lunregister 0x80000007#32) ∧
    readWord 0x00000048 0xFFFF0064 0 0 = some (.ld2n 100#16) ∧
    readWord 0x00000049 0xFFFF1000 0 0 = some (.ln2d 4096#16) ∧
    readWord 0x0000004F 1 2 3 = some .lteardown := by decide

/-- R77, the ends of each range it lists. -/
theorem test_decode_illegal :
    (∀ w ∈ [0x00, 0x07, 0x0E, 0x1F, 0x25, 0x27, 0x28, 0x3F, 0x4A, 0x4E, 0x50, 0x5F, 0x60, 0xFF, 0x100, 0x101,
      0x80000041], readWord w 0 0 0 = none) := by decide

theorem test_decode_rejects_by_name :
    decode ⟨0x00000101#32, 0#32, 0#32, 0#32⟩ = .error .reservedBits ∧
    decode ⟨0x00000025#32, 0#32, 0#32, 0#32⟩ = .error .reservedOpcode := by decide

/-- The opcode table's numbering: 32 bits are `CMD`, 128 bits are all four words. -/
theorem test_decodeTableWord :
    decodeTableWord 32 0x00000005 = some (.fxmul 0#32 0#32) ∧
    decodeTableWord 128 0x000000640000000008000FFF00000045 = some (.lsetcolor 4095#12 2048#12 0#12 100#32) ∧
    decodeTableWord 32 0x00000007 = none := by decide

/-! ## The assembler and its checks (R79, R80) -/

/-- R79's two examples. -/
theorem test_assemble :
    assemble ⟨0x05#8, [0x30000000, 0x10000000]⟩ = some ⟨0x05#32, 0x30000000#32, 0x10000000#32, 0#32⟩ ∧
    assemble ⟨0x45#8, [4095, 2048, 0, 100]⟩ = some ⟨0x45#32, 0x08000FFF#32, 0#32, 0x64#32⟩ ∧
    assemble ⟨0x01#8, [-5]⟩ = some ⟨0x01#32, 0xFFFFFFFB#32, 0#32, 0#32⟩ := by decide

/-- P1 and P2 of 95_test_vectors.md, their pseudo-instructions; LSNAP from R80. -/
theorem test_pseudo :
    assemble (pseudoFxneg 0x0AAAAAAB) = some ⟨0x04#32, 0#32, 0x0AAAAAAB#32, 0#32⟩ ∧
    assemble (pseudoMdec8i 0xFFFF9966) = some ⟨0x24#32, 0x00006699#32, 0#32, 0#32⟩ ∧
    assemble (pseudoMdec16i 0x56595A65) = some ⟨0x26#32, 0xA9A6A59A#32, 0#32, 0#32⟩ ∧
    assemble (pseudoLsnap 32768) = some ⟨0x40#32, 32768#32, 0#32, 0#32⟩ := by decide

theorem test_illFormed_opcode : (⟨0x07#8, [1, 2]⟩ : AsmLine).wellFormed = false := by decide
theorem test_illFormed_too_few : (⟨0x03#8, [1]⟩ : AsmLine).wellFormed = false := by decide
theorem test_illFormed_too_many : (⟨0x4F#8, [0]⟩ : AsmLine).wellFormed = false := by decide
theorem test_illFormed_unsigned_high : (⟨0x20#8, [256]⟩ : AsmLine).wellFormed = false := by decide
theorem test_illFormed_unsigned_negative : (⟨0x46#8, [-1]⟩ : AsmLine).wellFormed = false := by decide
theorem test_illFormed_signed_high : (⟨0x01#8, [4294967296]⟩ : AsmLine).wellFormed = false := by decide
theorem test_illFormed_signed_low : (⟨0x01#8, [-2147483649]⟩ : AsmLine).wellFormed = false := by decide
theorem test_illFormed_second_operand : (⟨0x45#8, [0, 4096, 0, 0]⟩ : AsmLine).wellFormed = false := by decide
theorem test_wellFormed_instr : (Instr.lsetcolor 4095#12 4095#12 4095#12 0xFFFFFFFF#32).wellFormed = true := by decide

/-! ## Single steps -/

/-- What a state with this command at the host's index shows after one step. -/
def after {α : Type} (s : State) (cmd a b c : Nat) (f : State → α) : Option α :=
  match step (s.placeCommand ⟨BitVec.ofNat 32 cmd, BitVec.ofNat 32 a, BitVec.ofNat 32 b, BitVec.ofNat 32 c⟩) with
  | .next t => some (f t)
  | .fault _ => none
  | .refused _ => none

/-- `RES`, `STAT` and `FAULT.CAUSE` after a command from reset. -/
def answer (cmd a b : Nat) : Option (Word × Byte × Byte) :=
  after State.reset cmd a b 0 fun t => (t.res, t.stat, t.faultCause)

/-- A completed command from reset with this `RES`. -/
abbrev Answers (cmd a b : Nat) (v : Word) : Prop := answer cmd a b = some (v, 0x00#8, 0x00#8)

theorem test_fxfromint_wraps : Answers 0x01 0xFFFFFFFB 0 0x60000000#32 := by decide
theorem test_fxfromint_least : Answers 0x01 0x80000000 0 0x00000000#32 := by decide
theorem test_fxtoint_tie : Answers 0x02 0xD0000000 0 0xFFFFFFFF#32 := by decide
theorem test_fxtoint_largest : Answers 0x02 0x7FFFFFFF 0 4#32 := by decide
theorem test_fxadd_wraps : Answers 0x03 0x7FFFFFFF 1 0x80000000#32 := by decide
theorem test_fxsub_order : Answers 0x04 0x20000000 0x30000000 0xF0000000#32 := by decide
theorem test_fxsub_negates_least : Answers 0x04 0 0x80000000 0x80000000#32 := by decide
theorem test_fxmul_tie : Answers 0x05 0xFFFFFFFD 0x10000000 0xFFFFFFFF#32 := by decide
theorem test_fxmul_wraps : Answers 0x05 0x80000000 0x7FFFFFFF 0x00000004#32 := by decide
theorem test_fxdiv_tie_mixed_sign : Answers 0x06 0xFFFFFFFF 0x40000000 0xFFFFFFFF#32 := by decide
theorem test_fxdiv_mixed_sign : Answers 0x06 0x20000000 0xA0000000 0xF5555555#32 := by decide
theorem test_fxeq : Answers 0x08 0x20000000 0x20000001 0#32 := by decide
theorem test_fxne : Answers 0x09 0x20000000 0x20000001 1#32 := by decide
theorem test_fxlt_signed : Answers 0x0A 0x80000000 0x7FFFFFFF 1#32 := by decide
theorem test_fxle_equal : Answers 0x0B 0x20000000 0x20000000 1#32 := by decide
theorem test_fxgt_signed : Answers 0x0C 0x7FFFFFFF 0x80000000 1#32 := by decide
theorem test_fxge_signed : Answers 0x0D 0xE0000000 0xF0000000 0#32 := by decide

theorem test_fxdiv_literal :
    fxDiv .literal 0x20000000#32 0xA0000000#32 = 0xF5555556#32 ∧
    fxDiv .literal 0xFFFFFFFD#32 0x00000002#32 = 0xD0000001#32 := by decide

theorem test_menc8 : Answers 0x20 0xA5 0 0xFFFF6699#32 := by decide
theorem test_menc8i : Answers 0x21 0xA5 0 0xFFFF9966#32 := by decide
theorem test_menc16 : Answers 0x22 0x1234 0 0xA9A6A59A#32 := by decide
theorem test_menc16i : Answers 0x23 0x1234 0 0x56595A65#32 := by decide
theorem test_mdec8 : Answers 0x24 0x12346699 0 0x000000A5#32 := by decide
theorem test_mdec8_illegal : Answers 0x24 0x00000000 0 0x0000FFFF#32 := by decide
theorem test_mdec16 : Answers 0x26 0x6A95A699 0 0x00008725#32 := by decide
theorem test_mdec16_last_symbol : Answers 0x26 0xAAAAAAAB 0 0x0000FFFF#32 := by decide

theorem test_ld2n_boundary : Answers 0x48 7 0 0#32 ∧ Answers 0x48 8 0 1#32 ∧ Answers 0x48 65535 0 4095#32 := by decide
theorem test_ln2d_clamps : Answers 0x49 4095 0 65520#32 ∧ Answers 0x49 4096 0 65535#32 := by decide

/-- An engine at level 2048 heading for 0 in 1000 fade-time units, as LSETLEVEL left it (P3, command 5). -/
def fading : State :=
  { State.reset with
    eng := { Engine.reset with level := 2048#12, origin := 2048#12, duration := 1000#32, fading := true } }

/-- A torn-down unit, the engine's other fields at their reset values. -/
def tornDown : State :=
  { State.reset with lifecycle := .tornDown, eng := { Engine.reset with enabled := false } }

/-- A block a division by zero has faulted. -/
def faulted : State := { State.reset with faultCause := 0x02#8, faultCmd := 0x00000006#32 }

/-- One observer, registered (V-L10). -/
def observed : State := { State.reset with slots := [⟨true, 7#32⟩] }

/-- V-L1. -/
theorem test_lsetlevel_snap : after State.reset 0x40 32768 0 0 (fun t => (t.mLevel, t.eng)) =
    some (32768#16, { Engine.reset with level := 2048#12, target := 2048#12, origin := 2048#12 }) := by decide +kernel

/-- P3, command 5. -/
theorem test_lsetlevel_fade :
    after { State.reset with mLevel := 32768#16, eng := { Engine.reset with level := 2048#12, target := 2048#12, origin := 2048#12 } }
      0x40 0 1000 0 (fun t => (t.mLevel, t.eng)) = some (0#16, fading.eng) := by decide +kernel

/-- P3, command 6: the live level during a fade. -/
theorem test_lgetlevel_live : after { fading with eng := { fading.eng with level := 1500#12, elapsed := 1 } } 0x41 0 0 0
    (fun t => t.res) = some 24000#32 := by decide

/-- V-L3: the commanded level when idle, not 1008. -/
theorem test_lgetlevel_commanded : after { State.reset with mLevel := 1000#16, eng := { Engine.reset with level := 63#12 } }
    0x41 0 0 0 (fun t => t.res) = some 1000#32 := by decide

theorem test_lisfading : after fading 0x42 0 0 0 (fun t => t.res) = some 1#32 ∧
    after State.reset 0x42 0 0 0 (fun t => t.res) = some 0#32 := by decide

/-- V-L9. -/
theorem test_labort_fading : after fading 0x43 0 0 0 (fun t => (t.mLevel, t.eng.level, t.eng.target, t.eng.fading)) =
    some (32768#16, 2048#12, 2048#12, false) := by decide

/-- V-L7. -/
theorem test_labort_idle : after { State.reset with mLevel := 1000#16 } 0x43 0 0 0 (fun t => (t.mLevel, t.eng, t.res)) =
    some (1000#16, Engine.reset, 0#32) := by decide

/-- P4, command 2: the index stays. -/
theorem test_lwaitfade_holds : after fading 0x44 0 0 0 (fun t => (t.index, t.holding, t.pending.length)) =
    some (0, true, 1) := by decide

theorem test_lwaitfade_completes : after State.reset 0x44 0 0 0 (fun t => (t.index, t.holding, t.pending.length)) =
    some (1, false, 0) := by decide

/-- P4, command 0. -/
theorem test_lsetcolor : after State.reset 0x45 0x08000FFF 0 0 (fun t => (t.colR, t.colG, t.colB, t.eng.color, t.eng.fading)) =
    some (4095#12, 2048#12, 0#12, ⟨4095#12, 2048#12, 0#12⟩, false) := by decide

/-- V-L10 and V-L11. -/
theorem test_lregister : after State.reset 0x46 7 0 0 (fun t => (t.slots, t.stat)) = some ([⟨true, 7#32⟩], 0x00#8) ∧
    after observed 0x46 7 0 0 (fun t => (t.slots, t.stat)) = some ([⟨true, 7#32⟩], 0x01#8) := by decide

/-- V-L12 and V-L13. -/
theorem test_lunregister :
    after observed 0x47 8 0 0 (fun t => (t.slots, t.stat)) = some ([⟨true, 7#32⟩], 0x02#8) ∧
    after observed 0x47 7 0 0 (fun t => (t.slots, t.stat)) = some ([⟨false, 0#32⟩], 0x00#8) := by decide

/-- V-L18. -/
theorem test_lteardown : after fading 0x4F 0 0 0 (fun t => (t.eng.enabled, t.lifecycle, t.res)) =
    some (false, .tornDown, 0#32) := by decide

/-- V-L19 and V-L20. -/
theorem test_after_teardown :
    after tornDown 0x41 0 0 0 (fun t => (t.faultCause, t.faultCmd)) = some (0x03#8, 0x00000041#32) ∧
    after tornDown 0x20 0xA5 0 0 (fun t => (t.faultCause, t.res)) = some (0x00#8, 0xFFFF6699#32) := by decide

/-- V-F7, V-F8 and V-F9. -/
theorem test_faults :
    after State.reset 0x101 0 0 0 (fun t => (t.faultCause, t.faultCmd, t.index)) = some (0x01#8, 0x101#32, 1) ∧
    after tornDown 0x4A 0 0 0 (fun t => t.faultCause) = some 0x01#8 ∧
    after tornDown 0x06 1 0 0 (fun t => (t.faultCause, t.faultCmd)) = some (0x02#8, 0x00000006#32) := by decide

/-- V-F10. -/
theorem test_faulted_holds : after faulted 0x03 1 1 0 (fun t => (t.res, t.faultCause, t.index, t.holding)) =
    some (0#32, 0x02#8, 0, true) := by decide

/-- What one turn of another agent shows. -/
def afterTurn {α : Type} (s : State) (x : Turn) (f : State → α) : Option α :=
  match step { s with turns := [x] } with
  | .next t => some (f t)
  | .fault _ => none
  | .refused _ => none

/-- V-L15, V-L16, V-L21, V-F10. -/
theorem test_events :
    afterTurn observed (.engineEvent 0x2A#8) State.notify = some [⟨7#32, 0x2A#8⟩] ∧
    afterTurn State.reset (.engineEvent 0x2A#8) State.notify = some [] ∧
    afterTurn { observed with lifecycle := .tornDown } (.engineEvent 1#8) State.notify = some [] ∧
    afterTurn { observed with faultCause := 0x02#8 } (.engineEvent 1#8) State.notify = some [] := by decide

/-- V-F11: every block and engine field at its reset value, NOTIFY kept. -/
theorem test_reset_turn :
    afterTurn { fading with faultCause := 0x02#8, faultCmd := 6#32, res := 9#32, stat := 2#8, mLevel := 5#16, colR := 1#12,
                            slots := [⟨true, 7#32⟩], notify := [⟨7#32, 1#8⟩], lifecycle := .tornDown } .reset id =
      some { State.reset with notify := [⟨7#32, 1#8⟩] } := by decide

/-- With no turn listed a fade runs on, and the host waits; with the engine idle the host moves. -/
theorem test_unlisted_turn :
    (match step { fading with pending := [⟨0x03#32, 1#32, 1#32, 0#32⟩] } with
      | .next t => some (t.eng.elapsed, t.index, t.draws)
      | .fault _ => none
      | .refused _ => none) = some (1, 0, 1) ∧
    (match step { State.reset with pending := [⟨0x03#32, 1#32, 1#32, 0#32⟩] } with
      | .next t => some (t.res, t.index, t.draws)
      | .fault _ => none
      | .refused _ => none) = some (2#32, 1, 0) := by
  refine ⟨?_, by decide⟩
  by_cases h : Config.fadeSteps 1000#32 ≤ 1 <;>
    simp [step, nextStep, State.nextTurn, State.turnTaken, Engine.ready, takeTurn, State.setEngine, Engine.timeStep,
      fading, State.reset, Engine.reset, h]

/-- R250: a program of one command that completes ends normally. -/
theorem test_ended_normally : EndedNormally 1 { State.reset with pending := [⟨0x03#32, 1#32, 1#32, 0#32⟩] } :=
  ⟨fun h => h.elim (fun h => h rfl) (fun h => h rfl), _, rfl, rfl⟩

/-- P4's fade, whatever FADE_STEPS(5) is: the step that completes it. -/
theorem test_engine_last_step :
    (Engine.timeStep 77#12 { Engine.reset with
      target := 6#12, duration := 5#32, elapsed := Config.fadeStepsLessOne 5#32, fading := true }).level = 6#12 := by
  simp [Engine.timeStep, Engine.reset, Config.fadeSteps]

/-- The fixed entry points on one row: LSNAP's word as the first instruction after reset. -/
theorem test_withFetchWord :
    (match step (State.reset.withFetchWord 128 0x00000000000000000000800000000040) with
      | .next t => some t.eng.level
      | .fault _ => none
      | .refused _ => none) = some 2048#12 := by decide

/-! ## Witnesses: hypotheses that are met

Every obligation with hypotheses is met by the states and operands below. A statement whose only hypotheses are "not
faulted", or "not faulted and active", is met by `State.reset`: `witness_running`, `witness_active`. -/

/-- One command at the host's index, and the host's turn listed. -/
def issuing (s : State) (k : Command) : State := { s with pending := [k], turns := [.host] }

def cmdAdd : Command := ⟨0x03#32, 1#32, 1#32, 0#32⟩
def cmdDivZero : Command := ⟨0x06#32, 1#32, 0#32, 0#32⟩
def cmdGetLevel : Command := ⟨0x41#32, 0#32, 0#32, 0#32⟩
def cmdWait : Command := ⟨0x44#32, 0#32, 0#32, 0#32⟩
def cmdIllegal : Command := ⟨0x4A#32, 0#32, 0#32, 0#32⟩

/-- For FromIntScalesAndWraps, ToIntRoundsToNearest, AddAndSubtractWrap, MultiplyRoundsToNearest,
DivideByZeroRaisesDivZero, ComparisonsFollowTheSignedOrder, IntegerRoundTrip, EncodePlacesEverySymbol,
ManchesterRoundTrip, MarkerIsTheSoleErrorSignal, OnlyWaitFadeHolds. -/
theorem witness_running : State.reset.faultCause = 0x00#8 := by decide

/-- For SetLevelCommandsTheEngine, LampQueriesReadTheVisibleState, AbortFreezesTheLiveLevel, WaitFadeHoldsOrCompletes,
ConversionCommandsAnswer, TeardownDisablesTheEngine: an active unit, idle and fading. -/
theorem witness_active :
    (State.reset.faultCause = 0x00#8 ∧ State.reset.lifecycle = .active ∧ State.reset.eng.fading = false) ∧
    (fading.faultCause = 0x00#8 ∧ fading.lifecycle = .active ∧ fading.eng.fading = true) := by decide

theorem witness_LegalWordIsItsInstructionsWord : decode cmdAdd = .ok (.fxadd 1#32 1#32) := by decide

theorem witness_AssemblerProducesEncodings : assemble ⟨0x40#8, [65535, 4294967295]⟩ =
    some ⟨0x40#32, 0x0000FFFF#32, 0xFFFFFFFF#32, 0#32⟩ := by decide

theorem witness_PseudoInstructionsExpand :
    ((0xFFFF0000#32 : Word) ^^^ 0xFFFFFFFF#32).toNat < 65536 ∧ ((0xFFFFFFFF#32 : Word) ^^^ 0xFFFFFFFF#32).toNat < 65536 := by
  decide

theorem witness_StepRunsTheDecodedCommand :
    ∃ (s s' : State) (k : Command) (ks : List Command) (ts : List Turn) (i : Instr), decode k = .ok i ∧
      (s.pending = k :: ks ∧ s.turns = .host :: ts) ∧
      (s'.pending = k :: ks ∧ s'.turns = [] ∧ (s'.eng.enabled = false ∨ s'.eng.fading = false)) :=
  ⟨issuing fading cmdAdd, { State.reset with pending := [cmdAdd] }, cmdAdd, [], [],
    .fxadd 1#32 1#32, by decide, by decide, by decide⟩

theorem witness_StepOfTheOtherAgents :
    ∃ s1 s2 s2' s3 s4 s5 : State, s1.turns = [.engineStep 5#12] ∧
      (s2.turns = [.engineEvent 5#8] ∧ s2.eng.enabled = true) ∧
      (s2'.turns = [.engineEvent 5#8] ∧ s2'.eng.enabled = false) ∧ s3.turns = [.reset] ∧
      (s4.turns = [.host] ∧ s4.pending = []) ∧ (s5.turns = [] ∧ s5.eng.fading = false ∧ s5.pending = []) ∧
      (fading.turns = [] ∧ fading.eng.enabled = true ∧ fading.eng.fading = true) :=
  ⟨{ State.reset with turns := [.engineStep 5#12] }, { State.reset with turns := [.engineEvent 5#8] },
    { tornDown with turns := [.engineEvent 5#8] }, { State.reset with turns := [.reset] },
    { State.reset with turns := [.host] }, State.reset, by decide⟩

/-- The first and last word of each range of R77, and the least and greatest with `RSV` not 0. -/
theorem witness_IllegalWordsRaiseIllegalCmd :
    (∀ o ∈ [0x00, 0x07, 0x0E, 0x1F, 0x25, 0x27, 0x28, 0x3F, 0x4A, 0x4E, 0x50, 0x5F, 0x60, 0xFF],
      IllegalWord (BitVec.ofNat 32 o)) ∧
    IllegalWord 0x100#32 ∧ IllegalWord 0xFFFFFFFF#32 ∧
    ((issuing fading cmdIllegal).nextTurn = .host ∧ (issuing fading cmdIllegal).pending = [cmdIllegal] ∧
      (issuing fading cmdIllegal).faultCause = 0x00#8) ∧
    ({ State.reset with pending := [cmdIllegal] } : State).nextTurn = .host := by
  refine ⟨?_, .inl (by decide), .inl (by decide), ⟨rfl, rfl, rfl⟩, rfl⟩
  simp [IllegalWord, ReservedOpcode]

theorem witness_FaultedBlockIsStoppedUntilReset :
    faulted.faultCause ≠ 0x00#8 ∧
    (∃ t, step (issuing faulted cmdAdd) = .next t ∧ (issuing faulted cmdAdd).nextTurn ≠ .reset ∧
      ∀ live, (issuing faulted cmdAdd).nextTurn ≠ .engineStep live) ∧
    (∃ t, step { faulted with turns := [.engineStep 5#12] } = .next t) ∧
    (∃ t, step { faulted with turns := [.reset] } = .next t) :=
  ⟨by decide, ⟨_, rfl, by decide, nofun⟩, ⟨_, rfl⟩, ⟨_, rfl⟩⟩

/-- Two steps of a faulted block, the engine's and the host's; and a run that faults within one step, a reset after it. -/
theorem witness_FaultedRunStaysFaulted :
    (∃ s t : State, s.faultCause ≠ 0x00#8 ∧ Turn.reset ∉ s.turns ∧ s.pending ≠ [] ∧ core.run 2 s = .next t) ∧
    EndedFaulted 1 { issuing State.reset cmdDivZero with turns := [.host, .reset] } :=
  ⟨⟨{ issuing faulted cmdAdd with turns := [.engineStep 5#12] }, _, by decide, by decide, by decide, rfl⟩,
    .inr (by decide : (0x02#8 : Byte) ≠ 0x00#8)⟩

/-- One state for each of the four clauses; the clauses exclude each other, since a LAMP word and FXDIV's word are no
illegal words. -/
theorem witness_FaultChecksAreInOrder :
    ((issuing tornDown cmdIllegal).nextTurn = .host ∧ (issuing tornDown cmdIllegal).pending = [cmdIllegal]) ∧
    (issuing faulted cmdIllegal).faultCause ≠ 0x00#8 ∧
    ((issuing tornDown cmdIllegal).faultCause = 0x00#8 ∧ IllegalWord cmdIllegal.cmd) ∧
    ((issuing tornDown cmdGetLevel).faultCause = 0x00#8 ∧ LampWord 0x40#32 ∧ LampWord 0x49#32 ∧ LampWord 0x4F#32 ∧
      (issuing tornDown cmdGetLevel).lifecycle = .tornDown) ∧
    ((issuing tornDown cmdDivZero).faultCause = 0x00#8 ∧ cmdDivZero.cmd = 0x06#32 ∧ cmdDivZero.b = 0#32) ∧
    ¬ IllegalWord 0x06#32 ∧ ¬ IllegalWord 0x40#32 ∧ ¬ IllegalWord 0x49#32 ∧ ¬ IllegalWord 0x4F#32 := by
  refine ⟨by decide, by decide, ⟨by decide, .inr ?_⟩, by decide, by decide, ?_, ?_, ?_, ?_⟩
  · decide
  all_goals simp [ReservedOpcode]

theorem witness_OnlyThreeConditionsRaiseAFault :
    ∀ p ∈ [(State.reset, cmdIllegal), (State.reset, cmdDivZero), (tornDown, cmdGetLevel)],
      (issuing p.1 p.2).faultCause = 0x00#8 ∧ ∃ t, step (issuing p.1 p.2) = .next t ∧ t.faultCause ≠ 0x00#8 := by
  simp only [List.forall_mem_cons, List.not_mem_nil, false_implies, implies_true, and_true]
  exact ⟨⟨by decide, _, rfl, by decide⟩, ⟨by decide, _, rfl, by decide⟩, ⟨by decide, _, rfl, by decide⟩⟩

theorem witness_FaultsArePrecise :
    ∃ t, exec (.fxdiv 1#32 0#32) State.reset = .next t ∧ t.faultCause ≠ 0x00#8 := ⟨_, rfl, by decide⟩

theorem witness_LampCommandsFaultAfterTeardown :
    tornDown.faultCause = 0x00#8 ∧ tornDown.lifecycle = .tornDown ∧ Instr.lgetlevel.isLamp = true ∧
    (Instr.lsetlevel 0#16 0#32).isLamp = true ∧ Instr.lteardown.isLamp = true ∧ (Instr.mdec16 0#32).isLamp = false ∧
    (Instr.fxdiv 1#32 2#32).isLamp = false ∧ ∀ a, Instr.fxdiv 1#32 2#32 ≠ .fxdiv a 0#32 := by
  refine ⟨by decide, by decide, by decide, by decide, by decide, by decide, by decide, fun a h => ?_⟩
  cases h

/-- The three reasons a command does not hold, and the one case it does. -/
theorem witness_OnlyWaitFadeHolds :
    (fading.faultCause = 0x00#8 ∧ Instr.labort ≠ .lwaitfade) ∧ State.reset.eng.fading = false ∧
    tornDown.lifecycle = .tornDown ∧ (fading.eng.fading = true ∧ fading.lifecycle = .active) := by decide

theorem witness_FromIntScalesAndWraps :
    (-4 ≤ (0xFFFFFFFC#32 : Word).toInt ∧ (0xFFFFFFFC#32 : Word).toInt ≤ 3) ∧
    (-4 ≤ (3#32 : Word).toInt ∧ (3#32 : Word).toInt ≤ 3) ∧ (1#32 : Word).toNat % 8 = (9#32 : Word).toNat % 8 := by decide

/-- A divisor other than 0, a tie (-1 raw by 2.0), signs that agree and a dividend 0 beside signs that do not. -/
theorem witness_DivideRoundsHalfAwayFromZero :
    State.reset.faultCause = 0x00#8 ∧ (0x40000000#32 : Word) ≠ 0#32 ∧
    2 * ((-1) * (0x40000000#32 : Word).toInt - (0xFFFFFFFF#32 : Word).toInt * 2 ^ 29).natAbs =
      (0x40000000#32 : Word).toInt.natAbs ∧
    ((0xE0000000#32 : Word).toInt < 0 ↔ (0xA0000000#32 : Word).toInt < 0) ∧
    ¬ ((0x00000000#32 : Word).toInt < 0 ↔ (0xA0000000#32 : Word).toInt < 0) := by decide

theorem witness_ExactRulesEqualSixtyFourBitArithmetic : (0x80000000#32 : Word) ≠ 0#32 := by decide

/-- The largest divisors, with quotients at both ends of the range. -/
theorem witness_DivideThenMultiplyComesBack :
    ((0x20000000#32 : Word) ≠ 0#32 ∧ (0x20000000#32 : Word).toInt.natAbs ≤ 2 ^ 29 ∧
      -(2 ^ 31) ≤ divRound .halfAway ((0x7FFFFFFF#32 : Word).toInt * 2 ^ 29) (0x20000000#32 : Word).toInt ∧
      divRound .halfAway ((0x7FFFFFFF#32 : Word).toInt * 2 ^ 29) (0x20000000#32 : Word).toInt < 2 ^ 31) ∧
    ((0x20000000#32 : Word) ≠ 0#32 ∧
      -(2 ^ 31) ≤ divRound .halfAway ((0x80000000#32 : Word).toInt * 2 ^ 29) (0x20000000#32 : Word).toInt ∧
      divRound .halfAway ((0x80000000#32 : Word).toInt * 2 ^ 29) (0x20000000#32 : Word).toInt < 2 ^ 31) ∧
    ((0xE0000000#32 : Word) ≠ 0#32 ∧ (0xE0000000#32 : Word).toInt.natAbs ≤ 2 ^ 29 ∧
      -(2 ^ 31) ≤ divRound .halfAway ((1#32 : Word).toInt * 2 ^ 29) (0xE0000000#32 : Word).toInt ∧
      divRound .halfAway ((1#32 : Word).toInt * 2 ^ 29) (0xE0000000#32 : Word).toInt < 2 ^ 31) :=
  ⟨⟨by decide, by decide, by decide, by decide⟩, ⟨by decide, by decide, by decide⟩,
    ⟨by decide, by decide, by decide, by decide⟩⟩

/-- An illegal first symbol, an illegal last one, and a pattern with neither. -/
theorem witness_DecodeReadsEverySymbol :
    (∃ i, i < 8 ∧ (0x2AAA#16 : BitVec 16).getLsbD (2 * i) = (0x2AAA#16 : BitVec 16).getLsbD (2 * i + 1)) ∧
    (∀ i, i < 8 → (0x6699#16 : BitVec 16).getLsbD (2 * i) ≠ (0x6699#16 : BitVec 16).getLsbD (2 * i + 1)) ∧
    (∃ i, i < 16 ∧ (0xAAAAAAAB#32 : BitVec 32).getLsbD (2 * i) = (0xAAAAAAAB#32 : BitVec 32).getLsbD (2 * i + 1)) ∧
    (∀ i, i < 16 → (0xA9A6A59A#32 : BitVec 32).getLsbD (2 * i) ≠ (0xA9A6A59A#32 : BitVec 32).getLsbD (2 * i + 1)) :=
  ⟨⟨7, by decide, by decide⟩, by decide, ⟨0, by decide, by decide⟩, by decide⟩

theorem witness_EncodeLaws : manEnc (0xA5#8 : BitVec 8) true = manEnc (0xA5#8 : BitVec 8) true ∧
    manEnc (0x1234#16 : BitVec 16) false = manEnc (0x1234#16 : BitVec 16) false := ⟨rfl, rfl⟩

theorem witness_PureUnitsAreDeterministic :
    ∃ t t', (Instr.fxadd 1#32 1#32).isLamp = false ∧ State.reset.faultCause = 0x00#8 ∧ tornDown.faultCause = 0x00#8 ∧
      exec (.fxadd 1#32 1#32) State.reset = .next t ∧ exec (.fxadd 1#32 1#32) tornDown = .next t' ∧
      t.faultCause = 0x00#8 := ⟨_, _, by decide, by decide, by decide, rfl, rfl, by decide⟩

theorem witness_PureCommandsChangeOnlyTheResult :
    ∃ t, (Instr.mdec8 0#16).isLamp = false ∧ exec (.mdec8 0#16) fading = .next t ∧ t.faultCause = 0x00#8 :=
  ⟨_, by decide, rfl, by decide⟩

theorem witness_NoDriftAfterAbort :
    ∃ t, fading.faultCause = 0x00#8 ∧ fading.lifecycle = .active ∧ fading.eng.fading = true ∧
      exec .labort fading = .next t := ⟨_, by decide, by decide, by decide, rfl⟩

/-- COLOR_FADE_SETS_FADING is open, so which of the two clauses for a fade time other than 0 applies to an idle engine
is open too; each value of it meets one. -/
theorem witness_SetColorStoresAndForwards :
    (State.reset.faultCause = 0x00#8 ∧ State.reset.lifecycle = .active) ∧ fading.eng.fading = true ∧
    ((Config.colorFadeSetsFading = false) ∨
      ((1#32 : Word) ≠ 0#32 ∧ State.reset.eng.fading = false ∧ Config.colorFadeSetsFading = true)) := by
  refine ⟨by decide, by decide, ?_⟩
  cases Config.colorFadeSetsFading
  · exact .inl rfl
  · exact .inr (by decide)

/-- An empty slot after a taken one, and a full table. -/
theorem witness_RegisterTakesTheLeastEmptySlot :
    (∃ (before after : List Slot) (x : Slot), State.reset.slots = before ++ x :: after ∧
      (∀ y ∈ before, y.valid = true) ∧ x.valid = false) ∧
    (∃ (before after : List Slot) (x : Slot), ([⟨true, 7#32⟩, ⟨false, 0#32⟩] : List Slot) = before ++ x :: after ∧
      before ≠ [] ∧ (∀ y ∈ before, y.valid = true) ∧ x.valid = false) ∧
    (∀ y ∈ observed.slots, y.valid = true) :=
  ⟨⟨[], [], ⟨false, 0#32⟩, by decide⟩, ⟨[⟨true, 7#32⟩], [], ⟨false, 0#32⟩, by decide⟩, by decide⟩

theorem witness_UnregisterEmptiesTheLeastMatchingSlot :
    (∃ before after : List Slot, observed.slots = before ++ ⟨true, 7#32⟩ :: after ∧
      ∀ y ∈ before, y.valid = true → y.id ≠ 7#32) ∧
    (∀ y ∈ observed.slots, y.valid = true → y.id ≠ 8#32) ∧
    (∀ y ∈ State.reset.slots, y.valid = true → y.id ≠ 0#32) :=
  ⟨⟨[], [], by decide⟩, by decide, by decide⟩

/-- FADE_STEPS is open, so that a fade has a step left cannot be shown of one concrete state; every fading engine meets
one of the two clauses, and one that has run its time meets the first. -/
theorem witness_EngineStepAdvancesTheFade :
    (∀ s : State, s.eng.enabled = true → s.eng.fading = true →
      Config.fadeSteps s.eng.duration ≤ s.eng.elapsed + 1 ∨ s.eng.elapsed + 1 < Config.fadeSteps s.eng.duration) ∧
    (∃ s : State, s.nextTurn = .engineStep 9#12 ∧ s.eng.enabled = true ∧ s.eng.fading = true ∧
      Config.fadeSteps s.eng.duration ≤ s.eng.elapsed + 1) ∧
    (∃ s : State, s.nextTurn = .engineStep 9#12 ∧ s.eng.fading = false) := by
  refine ⟨fun s _ _ => by omega, ?_, ?_⟩
  · exact ⟨{ fading with turns := [.engineStep 9#12], eng := { fading.eng with elapsed := Config.fadeStepsLessOne 1000#32 } },
      rfl, rfl, rfl, Nat.le_refl _⟩
  · exact ⟨{ State.reset with turns := [.engineStep 9#12] }, rfl, rfl⟩

theorem witness_EventsNotifyEveryObserverInSlotOrder :
    (observed.faultCause = 0x00#8 ∧ observed.lifecycle = .active) ∧ faulted.faultCause ≠ 0x00#8 ∧
    tornDown.lifecycle = .tornDown := by decide

theorem witness_NotifyOnlyGrowsByDispatch :
    ∃ t, step { observed with turns := [.engineEvent 1#8] } = .next t ∧ t.notify ≠ observed.notify := ⟨_, rfl, by decide⟩

/-- For ResetConstructsFromAnyState (its one hypothesis, the slots) and ResetDiscardsAHoldingCommand. -/
theorem witness_reset_turn :
    ∃ s s' : State, s.nextTurn = .reset ∧ s.slots.length = Config.nClients ∧ s.holding = true ∧ s.pending ≠ [] ∧
      s'.nextTurn = .reset ∧ s'.holding = false :=
  ⟨{ issuing fading cmdWait with turns := [.reset], holding := true }, { State.reset with turns := [.reset] }, by decide⟩

/-- Each of the three writers of mLevel. -/
theorem witness_OnlySetLevelAbortAndResetWriteTheLevel :
    (∃ t, step (issuing State.reset ⟨0x40#32, 5#32, 0#32, 0#32⟩) = .next t ∧ t.mLevel ≠ State.reset.mLevel) ∧
    (∃ t, step (issuing fading ⟨0x43#32, 0#32, 0#32, 0#32⟩) = .next t ∧ t.mLevel ≠ fading.mLevel) ∧
    (∃ t, step { State.reset with mLevel := 5#16, turns := [.reset] } = .next t ∧ t.mLevel ≠ 5#16) :=
  ⟨⟨_, rfl, by decide⟩, ⟨_, rfl, by decide⟩, ⟨_, rfl, by decide⟩⟩

theorem witness_WritersOfTheLampRegisters :
    (∃ t, step (issuing State.reset ⟨0x45#32, 0#32, 0#32, 0#32⟩) = .next t ∧ ¬ SameColour State.reset t) ∧
    (∃ t, step (issuing State.reset ⟨0x46#32, 5#32, 0#32, 0#32⟩) = .next t ∧ t.slots ≠ State.reset.slots) ∧
    (∃ t, step (issuing observed ⟨0x47#32, 7#32, 0#32, 0#32⟩) = .next t ∧ t.slots ≠ observed.slots) ∧
    (∃ t, step (issuing State.reset ⟨0x4F#32, 0#32, 0#32, 0#32⟩) = .next t ∧ t.lifecycle ≠ State.reset.lifecycle) ∧
    (issuing State.reset cmdAdd).nextTurn ≠ .reset :=
  ⟨⟨_, rfl, by decide⟩, ⟨_, rfl, by decide⟩, ⟨_, rfl, by decide⟩, ⟨_, rfl, by decide⟩, by decide⟩

/-- A whole fade, as many draws as FADE_STEPS(1000) asks for. -/
theorem witness_FadeEndsAtItsTarget :
    ∃ draws : List Native, fading.eng.enabled = true ∧ fading.eng.fading = true ∧
      Config.fadeSteps fading.eng.duration ≤ fading.eng.elapsed + draws.length ∧ draws ≠ [] := by
  refine ⟨List.replicate (Config.fadeSteps 1000#32) 9#12, rfl, rfl, ?_, ?_⟩
  · rw [List.length_replicate]
    exact (Nat.zero_add _).ge
  · simp [Config.fadeSteps]

/-- A fade of time 5, and a snap. -/
theorem witness_FinishedFadeShowsTheCommandedLevel :
    ∀ u ∈ [5#32, 0#32], ∃ (t : State) (draws : List Native), State.reset.faultCause = 0x00#8 ∧
      State.reset.lifecycle = .active ∧ State.reset.eng.enabled = true ∧
      exec (.lsetlevel 100#16 u) State.reset = .next t ∧ Config.fadeSteps u ≤ draws.length := by
  intro u _
  exact ⟨_, List.replicate (Config.fadeSteps u) 9#12, rfl, rfl, rfl, rfl, by rw [List.length_replicate]⟩

theorem engineStepsIn_replicate (n : Nat) : engineStepsIn (List.replicate n (.engineStep 9#12)) = n := by
  induction n with
  | zero => rfl
  | succ n ih => rw [List.replicate_succ, engineStepsIn, ih]

/-- LWAITFADE at the host's index during a fade, nothing else listed; and with the engine idle. -/
theorem witness_WaitFadeCompletes_unlisted :
    ∀ s ∈ [({ fading with pending := [cmdWait, cmdAdd] } : State), { State.reset with pending := [cmdWait, cmdAdd] }],
      s.faultCause = 0x00#8 ∧ s.lifecycle = .active ∧ s.eng.enabled = true ∧ s.pending = cmdWait :: [cmdAdd] ∧
      decode cmdWait = .ok .lwaitfade ∧ Turn.reset ∉ s.turns := by decide

/-- A retry by the host, then a whole fade, an event, and the host's turn. -/
theorem witness_WaitFadeCompletesUnderEverySchedule :
    ∃ (s : State) (ts : List Turn), s.faultCause = 0x00#8 ∧ s.lifecycle = .active ∧ s.eng.enabled = true ∧
      s.eng.fading = true ∧ s.pending = [cmdWait] ∧ decode cmdWait = .ok .lwaitfade ∧ Turn.reset ∉ ts ∧
      s.turns = ts ++ [.host] ∧ Config.fadeSteps s.eng.duration ≤ s.eng.elapsed + engineStepsIn ts ∧
      0 < engineStepsIn ts := by
  refine ⟨{ issuing fading cmdWait with
      turns := .host :: .engineEvent 1#8 :: List.replicate (Config.fadeSteps 1000#32) (.engineStep 9#12) ++ [.host] },
    .host :: .engineEvent 1#8 :: List.replicate (Config.fadeSteps 1000#32) (.engineStep 9#12),
    rfl, rfl, rfl, rfl, rfl, by decide, ?_, rfl, ?_, ?_⟩
  · simp
  · show Config.fadeSteps 1000#32 ≤ 0 + engineStepsIn (List.replicate (Config.fadeSteps 1000#32) (.engineStep 9#12))
    rw [engineStepsIn_replicate]
    exact (Nat.zero_add _).ge
  · show 0 < engineStepsIn (List.replicate (Config.fadeSteps 1000#32) (.engineStep 9#12))
    rw [engineStepsIn_replicate]
    exact Nat.succ_pos _

/-- A unit in the middle of a fade, and one that is torn down, both about to move. -/
theorem witness_StepKeepsLampAndEngineAgreed :
    (LampEngineAgree fading ∧ ∃ t, step fading = .next t) ∧ (LampEngineAgree tornDown ∧ ∃ t, step tornDown = .next t) := by
  refine ⟨⟨⟨fun _ => rfl, nofun, fun _ => by decide, nofun, fun _ _ => ⟨by decide, Nat.succ_pos _⟩, fun _ => rfl⟩, _, rfl⟩,
    ⟨⟨nofun, fun _ => rfl, nofun, nofun, nofun, nofun⟩, _, rfl⟩⟩

/-- A faulted block, and one observer registered. -/
theorem witness_StepKeepsTheRegistersLegal :
    (StatLegal faulted ∧ FaultRecordSound faulted ∧ SlotTableSound faulted) ∧ SlotTableSound observed ∧
    StatLegal { State.reset with stat := 0x02#8 } ∧ ∃ t, step (issuing faulted cmdAdd) = .next t :=
  ⟨by decide, by decide, by decide, _, rfl⟩

theorem witness_StepKeepsHoldingExplained :
    ∃ s t : State, s.holding = true ∧ HoldingExplained s ∧ step s = .next t :=
  ⟨{ issuing fading cmdWait with holding := true }, _, rfl, fun _ => ⟨cmdWait, rfl, .inr (by decide)⟩, rfl⟩

end Sys2Proof.Tests
end

section
/-! SUPPORT. What a step can do to the block's registers, and the invariants of `STAT`, `FAULT` and the slot table. -/

namespace Sys2Proof.Machine

/-! ## Which words raise which fault -/

theorem rsvField_eq_zero_iff (w : Word) : rsvField w = 0#24 ↔ w.toNat / 256 = 0 := by
  have hw : w.toNat < 4294967296 := w.isLt
  rw [rsvField, fieldAt_eq_shift, ← BitVec.toNat_inj]
  simp only [BitVec.toNat_setWidth, BitVec.toNat_ushiftRight, BitVec.toNat_ofNat, Nat.shiftRight_eq_div_pow]
  omega

theorem opcField_toNat (w : Word) : (opcField w).toNat = w.toNat % 256 := by
  simp [opcField]

/-- R73 and R77 divide the opcodes between them. -/
theorem decodeOpcode_eq_none_iff (o : Byte) (a b c : Word) :
    decodeOpcode o a b c = none ↔ ReservedOpcode o.toNat := by
  unfold decodeOpcode
  split
  case h_30 =>
    have ho : o.toNat < 256 := o.isLt
    simp only [imp_false, true_iff] at *
    omega
  all_goals
    rename_i ho
    simp [ho]

/-- The decoder rejects the words of R77 and no other. -/
theorem decode_error_iff (k : Command) : (∃ r, decode k = .error r) ↔ IllegalWord k.cmd := by
  rw [IllegalWord, ← opcField_toNat, ← decodeOpcode_eq_none_iff _ k.a k.b k.c, Ne, ← rsvField_eq_zero_iff]
  rcases decode_cases k with ⟨i, hd, hr, ho⟩ | ⟨hd, hr, ho⟩ | ⟨hd, hr⟩
  · simp [hd, hr, ho]
  · simp [hd, ho]
  · simp [hd, hr]

theorem lampWord_commandWord {i : Instr} (h : i.isLamp = true) : LampWord (commandWord i) := by
  cases i with
  | lsetlevel | lgetlevel | lisfading | labort | lwaitfade | lsetcolor | lregister | lunregister | ld2n | ln2d
  | lteardown => simp [commandWord, encode, opcodeWord]
  | _ => simp [Instr.isLamp, commandWord, encode, opcodeWord, fieldAt_eq_shift] at h

/-! ## What a step can do to the block's registers -/

/-- A command on a running block leaves the block as it was, raises a fault of the table (R202), or completes with
one of the three statuses (R23). -/
theorem exec_running_block_cases {i : Instr} {s t : State} (hs : s.faultCause = 0#8) (h : exec i s = .next t) :
    SameBlock s t ∨
    (∃ c w, t = s.raiseFault c w ∧ FaultRecordSound t) ∨
    (∃ j u v c, LampEffect j s u ∧ t = u.complete v c ∧ StatLegal t) := by
  rcases exec_running_cases hs h with ⟨-, v, rfl⟩ | ⟨-, -, rfl⟩ | ⟨hl, ht, rfl⟩ | ⟨-, -, -, rfl⟩ |
    ⟨-, -, u, v, c, hu, rfl, hc, -⟩
  · exact .inr (.inr ⟨i, s, v, _, .inl rfl, rfl, .inl rfl⟩)
  · exact .inr (.inl ⟨_, _, rfl, .inr (.inr (.inl ⟨rfl, rfl⟩))⟩)
  · exact .inr (.inl ⟨_, _, rfl, .inr (.inr (.inr ⟨rfl, lampWord_commandWord hl, ht⟩))⟩)
  · exact .inl (by simp)
  · exact .inr (.inr ⟨i, u, v, c, hu, rfl, hc⟩)

/-- The host's turn leaves the block as it was, or the block is running and its command faults or completes. -/
theorem hostTurn_block_cases {s t : State} (h : hostTurn s = .next t) :
    SameBlock s t ∨
    (s.faultCause = 0#8 ∧ ∃ c w, t = s.raiseFault c w ∧ FaultRecordSound t) ∨
    (s.faultCause = 0#8 ∧ ∃ j u v c, LampEffect j s u ∧ t = u.complete v c ∧ StatLegal t) := by
  by_cases hs : s.faultCause = 0#8
  · rcases hostTurn_cases h with ⟨-, rfl⟩ | ⟨k, ks, -, ⟨i, -, hx⟩ | ⟨r, hd, rfl⟩⟩
    · exact .inl (by simp)
    · simpa only [hs, true_and] using exec_running_block_cases hs hx
    · rw [illegalCommand_of_running hs]
      exact .inr (.inl ⟨hs, _, _, rfl, .inr (.inl ⟨rfl, (decode_error_iff k).1 ⟨r, hd⟩⟩)⟩)
  · refine .inl ?_
    rcases hostTurn_cases h with ⟨-, rfl⟩ | ⟨k, ks, -, ⟨i, -, hx⟩ | ⟨r, -, rfl⟩⟩
    · simp
    · rw [exec_of_faulted hs] at hx
      cases hx
      simp
    · simp [illegalCommand, whenRunning_of_faulted hs]

/-- Every step leaves the block as it was, raises a fault of the table, completes a command, or is reset. -/
theorem step_block_cases {s t : State} (h : step s = .next t) :
    SameBlock s t ∨
    (s.faultCause = 0#8 ∧ ∃ c w, t = s.turnTaken.raiseFault c w ∧ FaultRecordSound t) ∨
    (s.faultCause = 0#8 ∧ ∃ j u v c, LampEffect j s.turnTaken u ∧ t = u.complete v c ∧ StatLegal t) ∨
    t = s.turnTaken.resetStep := by
  rcases step_cases h with ⟨-, hh⟩ | ⟨live, -, rfl⟩ | ⟨e, -, rfl⟩ | ⟨-, rfl⟩
  · rcases hostTurn_block_cases hh with hb | hf | hc
    · exact .inl hb
    · exact .inr (.inl hf)
    · exact .inr (.inr (.inl hc))
  · exact .inl (by simp)
  · exact .inl (by simp)
  · exact .inr (.inr (.inr rfl))

/-! ## The three invariants -/

theorem step_keeps_statLegal {s t : State} (h : step s = .next t) (hs : StatLegal s) : StatLegal t := by
  rcases step_block_cases h with ⟨⟨-, hstat⟩, -⟩ | ⟨-, c, w, rfl, -⟩ | ⟨-, j, u, v, c, -, rfl, hlegal⟩ | rfl
  · simpa only [StatLegal, hstat] using hs
  · exact hs
  · exact hlegal
  · exact .inl rfl

/-- On a running block the record is sound exactly when it holds no word (R26). -/
theorem faultRecordSound_iff_of_running {s : State} (h : s.faultCause = 0#8) :
    FaultRecordSound s ↔ s.faultCmd = 0#32 := by
  simp [FaultRecordSound, h]

theorem step_keeps_faultRecordSound {s t : State} (h : step s = .next t) (hs : FaultRecordSound s) :
    FaultRecordSound t := by
  rcases step_block_cases h with ⟨-, ⟨hcause, hcmd⟩, hlife, -⟩ | ⟨-, c, w, -, hsound⟩ |
    ⟨hrun, j, u, v, c, hu, rfl, -⟩ | rfl
  · simpa only [FaultRecordSound, hcause, hcmd, hlife] using hs
  · exact hsound
  · obtain ⟨-, -, hcause, hcmd, -⟩ := hu.frame
    have hcmd0 := (faultRecordSound_iff_of_running hrun).1 hs
    exact .inl ⟨hcause.trans hrun, hcmd.trans hcmd0⟩
  · exact .inl ⟨rfl, rfl⟩

/-- Replacing one slot keeps the table sound when the new one is valid or cleared. -/
theorem setSlots_keeps_slotTableSound {before after : List Slot} {x y : Slot} {s : State}
    (heq : s.slots = before ++ x :: after) (hy : y.valid = false → y.id = 0#32) (hs : SlotTableSound s) :
    SlotTableSound (s.setSlots (before ++ y :: after)) := by
  obtain ⟨hlen, hempty⟩ := hs
  refine ⟨by simpa [heq] using hlen, fun z hz hv => ?_⟩
  rcases List.mem_append.1 hz with hb | hz
  · exact hempty z (by simp [heq, hb]) hv
  rcases List.mem_cons.1 hz with rfl | ha
  · exact hy hv
  · exact hempty z (by simp [heq, ha]) hv

theorem LampEffect.keeps_slotTableSound {i : Instr} {s u : State} (h : LampEffect i s u) (hs : SlotTableSound s) :
    SlotTableSound u := by
  rcases h with rfl | ⟨l, f, -, rfl⟩ | ⟨-, -, rfl⟩ | ⟨r, g, b, f, -, rfl⟩ | ⟨id, ss, -, hr, rfl⟩ |
    ⟨id, ss, -, hr, rfl⟩ | ⟨-, rfl⟩
  · exact hs
  · exact hs
  · exact hs
  · exact hs
  · obtain ⟨before, x, after, heq, -, -, rfl⟩ := registerSlot_cases hr
    exact setSlots_keeps_slotTableSound heq nofun hs
  · obtain ⟨before, after, heq, -, rfl⟩ := unregisterSlot_cases hr
    exact setSlots_keeps_slotTableSound heq (fun _ => rfl) hs
  · exact hs

theorem resetStep_keeps_slotTableSound {s : State} (hs : SlotTableSound s) : SlotTableSound s.resetStep := by
  refine ⟨by simpa using hs.1, fun x hx _ => ?_⟩
  obtain ⟨y, -, rfl⟩ := List.mem_map.1 hx
  rfl

theorem step_keeps_slotTableSound {s t : State} (h : step s = .next t) (hs : SlotTableSound s) :
    SlotTableSound t := by
  rcases step_block_cases h with ⟨-, -, -, -, -, hslots⟩ | ⟨-, c, w, rfl, -⟩ | ⟨-, j, u, v, c, hu, rfl, -⟩ | rfl
  · simpa only [SlotTableSound, hslots] using hs
  · exact hs
  · exact hu.keeps_slotTableSound (s := s.turnTaken) hs
  · exact resetStep_keeps_slotTableSound (s := s.turnTaken) hs

/-- Settles O58: each register group keeps its invariant under each of the four things a step can do to the block. -/
theorem stepKeepsTheRegistersLegal : Obligations.StepKeepsTheRegistersLegal :=
  fun _ _ h => ⟨step_keeps_statLegal h, step_keeps_faultRecordSound h, step_keeps_slotTableSound h⟩

end Sys2Proof.Machine
end

section
/-! SUPPORT. When the engine follows a commanded level and colour (R31, R36), and that each of its operations keeps it
following. -/

namespace Sys2Proof.Machine

/-- The engine is on, stands at or heads for the level `l`, stands still exactly there, is within the time of a fade in
progress, and holds the colour `c`: what LampEngineAgree asks of an active unit's engine. -/
structure Engine.Follows (l : Level) (c : Rgb) (e : Engine) : Prop where
  on : e.enabled = true
  target : e.target = dali2driver l
  idle : e.fading = false → e.level = e.target
  within : e.fading = true → e.duration ≠ 0#32 ∧ e.elapsed < Config.fadeSteps e.duration
  colour : e.color = c

theorem LampEngineAgree.follows {s : State} (h : LampEngineAgree s) (ha : s.lifecycle = .active) :
    s.eng.Follows s.mLevel ⟨s.colR, s.colG, s.colB⟩ :=
  ⟨h.on_while_active ha, h.target_is_commanded ha, h.idle_at_target ha, h.fade_within_time ha, h.colour_forwarded ha⟩

theorem lampEngineAgree_of_follows {s : State} (ha : s.lifecycle = .active)
    (hf : s.eng.Follows s.mLevel ⟨s.colR, s.colG, s.colB⟩) : LampEngineAgree s :=
  ⟨fun _ => hf.on, fun ht => absurd (ha.symm.trans ht) nofun, fun _ => hf.target, fun _ => hf.idle,
    fun _ => hf.within, fun _ => hf.colour⟩

theorem lampEngineAgree_of_off {s : State} (ht : s.lifecycle = .tornDown) (hoff : s.eng.enabled = false) :
    LampEngineAgree s := by
  have hna : s.lifecycle ≠ .active := by simp [ht]
  exact ⟨(absurd · hna), fun _ => hoff, (absurd · hna), (absurd · hna), (absurd · hna), (absurd · hna)⟩

/-! ## What the engine's operations do -/

theorem fadeSteps_pos (t : Word) : 0 < Config.fadeSteps t := Nat.succ_pos _

theorem setLevel_zero (l : Native) (e : Engine) :
    e.setLevel l 0#32 =
      { e with level := l, target := l, origin := l, duration := 0#32, elapsed := 0, fading := false } :=
  if_pos rfl

theorem setLevel_of_ne_zero {t : Word} (ht : t ≠ 0#32) (l : Native) (e : Engine) :
    e.setLevel l t = { e with origin := e.level, target := l, duration := t, elapsed := 0, fading := true } :=
  if_neg ht

/-- A colour change leaves the level side alone, or starts a fade from an idle engine's level to itself (R218). -/
theorem setColor_cases (c : Rgb) (t : Word) (e : Engine) :
    e.setColor c t = { e with color := c } ∨
    (t ≠ 0#32 ∧ e.fading = false ∧ e.setColor c t = Engine.startColorFade t { e with color := c }) := by
  unfold Engine.setColor
  by_cases h : t ≠ 0#32 ∧ Config.colorFadeSetsFading = true ∧ e.fading = false
  · exact .inr ⟨h.1, h.2.2, if_pos h⟩
  · exact .inl (if_neg h)

theorem abortFading_of_fading {e : Engine} (hf : e.fading = true) :
    e.abortFading = { e with fading := false, target := e.level } :=
  if_pos hf

/-- The native level of a native level's logical level is that level (R154). -/
theorem dali2driver_driver2dali (d : Native) : dali2driver (driver2dali d.toNat) = d := by
  have hd : d.toNat < 4096 := d.isLt
  rw [← BitVec.toNat_inj, dali2driver_toNat, driver2dali_toNat]
  omega

/-! ## They keep it following -/

theorem Engine.Follows.timeStep {l : Level} {c : Rgb} {e : Engine} (h : e.Follows l c) (live : Native) :
    (e.timeStep live).Follows l c := by
  obtain ⟨hon, htarget, hidle, hwithin, hcolour⟩ := h
  rcases timeStep_cases live e with ⟨-, heq⟩ | ⟨-, -, -, heq⟩ | ⟨-, hf, hleft, heq⟩ <;> rw [heq]
  · exact ⟨hon, htarget, hidle, hwithin, hcolour⟩
  · exact ⟨hon, htarget, fun _ => rfl, nofun, hcolour⟩
  · exact ⟨hon, htarget, fun hi => absurd (hf.symm.trans hi) nofun, fun _ => ⟨(hwithin hf).1, hleft⟩, hcolour⟩

theorem Engine.Follows.setLevel {l : Level} {c : Rgb} {e : Engine} (h : e.Follows l c) (l' : Level) (t : Word) :
    (e.setLevel (dali2driver l') t).Follows l' c := by
  by_cases ht : t = 0#32
  · rw [ht, setLevel_zero]
    exact ⟨h.on, rfl, fun _ => rfl, nofun, h.colour⟩
  · rw [setLevel_of_ne_zero ht]
    exact ⟨h.on, rfl, nofun, fun _ => ⟨ht, fadeSteps_pos t⟩, h.colour⟩

/-- A colour fade begins only from an idle engine, which stands at its target: the target stays the commanded one. -/
theorem Engine.Follows.setColor {l : Level} {c : Rgb} {e : Engine} (h : e.Follows l c) (c' : Rgb) (t : Word) :
    (e.setColor c' t).Follows l c' := by
  obtain ⟨hon, htarget, hidle, hwithin, -⟩ := h
  rcases setColor_cases c' t e with heq | ⟨ht, hf, heq⟩ <;> rw [heq]
  · exact ⟨hon, htarget, hidle, hwithin, rfl⟩
  · exact ⟨hon, (hidle hf).trans htarget, nofun, fun _ => ⟨ht, fadeSteps_pos t⟩, rfl⟩

theorem Engine.Follows.abortFading {l : Level} {c : Rgb} {e : Engine} (h : e.Follows l c) (hf : e.fading = true) :
    e.abortFading.Follows (driver2dali e.level.toNat) c := by
  rw [abortFading_of_fading hf]
  exact ⟨h.on, (dali2driver_driver2dali e.level).symm, fun _ => rfl, nofun, h.colour⟩

theorem reset_follows : Engine.reset.Follows 0#16 ⟨Config.colFull, Config.colFull, Config.colFull⟩ :=
  ⟨rfl, by decide, fun _ => rfl, nofun, rfl⟩

end Sys2Proof.Machine
end

section
/-! SUPPORT. What a step can do to the LAMP unit, the engine and NOTIFY, and which commands write each register. -/

namespace Sys2Proof.Machine

/-- A command leaves the LAMP unit and the engine alone, or completes on an active unit with its effect. -/
theorem exec_unit_cases {i : Instr} {s t : State} (h : exec i s = .next t) :
    (SameLamp s t ∧ t.eng = s.eng ∧ t.notify = s.notify) ∨
    (s.lifecycle = .active ∧ ∃ u v c, LampEffect i s u ∧ t = u.complete v c) := by
  by_cases hs : s.faultCause = 0#8
  · rcases exec_running_cases hs h with ⟨-, v, rfl⟩ | ⟨-, -, rfl⟩ | ⟨-, -, rfl⟩ | ⟨-, -, -, rfl⟩ |
      ⟨-, ha, u, v, c, hu, rfl, -, -⟩
    · exact .inl (by simp)
    · exact .inl (by simp)
    · exact .inl (by simp)
    · exact .inl (by simp)
    · exact .inr ⟨ha, u, v, c, hu, rfl⟩
  · rw [exec_of_faulted hs] at h
    cases h
    exact .inl (by simp)

theorem illegalCommand_keeps_unit (w : Word) (s : State) :
    SameLamp s (illegalCommand w s) ∧ (illegalCommand w s).eng = s.eng ∧ (illegalCommand w s).notify = s.notify := by
  by_cases hs : s.faultCause = 0#8
  · simp [illegalCommand_of_running hs]
  · simp [illegalCommand, whenRunning_of_faulted hs]

theorem hostTurn_unit_cases {s t : State} (h : hostTurn s = .next t) :
    (SameLamp s t ∧ t.eng = s.eng ∧ t.notify = s.notify) ∨
    (s.lifecycle = .active ∧ ∃ k i u v c, s.pending.head? = some k ∧ decode k = .ok i ∧ LampEffect i s u ∧
      t = u.complete v c) := by
  rcases hostTurn_cases h with ⟨-, rfl⟩ | ⟨k, ks, hp, ⟨i, hd, hx⟩ | ⟨r, -, rfl⟩⟩
  · exact .inl (by simp)
  · rcases exec_unit_cases hx with hsame | ⟨ha, u, v, c, hu, rfl⟩
    · exact .inl hsame
    · exact .inr ⟨ha, k, i, u, v, c, by rw [hp, List.head?_cons], hd, hu, rfl⟩
  · exact .inl (illegalCommand_keeps_unit k.cmd s)

/-- No command writes NOTIFY (R38). -/
theorem hostTurn_notify {s t : State} (h : hostTurn s = .next t) : t.notify = s.notify := by
  rcases hostTurn_unit_cases h with ⟨-, -, hn⟩ | ⟨-, k, i, u, v, c, -, -, hu, rfl⟩
  · exact hn
  · obtain ⟨-, -, -, -, hn, -⟩ := hu.frame
    exact hn

/-- A step leaves the LAMP unit alone and lets the engine stand or take its time step, completes the host's command on
an active unit with its effect, or is reset. -/
theorem step_unit_cases {s t : State} (h : step s = .next t) :
    (SameLamp s t ∧ (t.eng = s.eng ∨ ∃ live, t.eng = s.eng.timeStep live)) ∨
    (s.lifecycle = .active ∧ ∃ k i u v c, s.pending.head? = some k ∧ decode k = .ok i ∧
      LampEffect i s.turnTaken u ∧ t = u.complete v c) ∨
    (s.nextTurn = .reset ∧ t = s.turnTaken.resetStep) := by
  rcases step_cases h with ⟨-, hh⟩ | ⟨live, -, rfl⟩ | ⟨e, -, rfl⟩ | hr
  · rcases hostTurn_unit_cases hh with ⟨hl, he, -⟩ | hc
    · exact .inl ⟨hl, .inl he⟩
    · exact .inr (.inl hc)
  · exact .inl ⟨by simp, .inr ⟨live, rfl⟩⟩
  · exact .inl ⟨by simp, .inl (by simp)⟩
  · exact .inr (.inr hr)

/-- Each register of the LAMP unit is as before, or the command is one of its writers (R27, R32, R33, R165). -/
theorem LampEffect.writers {i : Instr} {s u : State} (h : LampEffect i s u) :
    (u.mLevel = s.mLevel ∨ (∃ l f, i = .lsetlevel l f) ∨ (i = .labort ∧ s.eng.fading = true)) ∧
    (SameColour s u ∨ ∃ r g b f, i = .lsetcolor r g b f) ∧
    (u.slots = s.slots ∨ ∃ id, i = .lregister id ∨ i = .lunregister id) ∧
    (u.lifecycle = s.lifecycle ∨ (u.lifecycle = .tornDown ∧ i = .lteardown)) := by
  rcases h with rfl | ⟨l, f, rfl, rfl⟩ | ⟨rfl, hf, rfl⟩ | ⟨r, g, b, f, rfl, rfl⟩ | ⟨id, ss, rfl, -, rfl⟩ |
    ⟨id, ss, rfl, -, rfl⟩ | ⟨rfl, rfl⟩
  · simp
  · simp
  · simp [hf]
  · simp
  · simp
  · simp
  · simp

/-- Besides reset, a step that writes the LAMP unit's registers is the effect of the command at the host's index. -/
theorem step_lamp_cases {s t : State} (h : step s = .next t) (hr : s.nextTurn ≠ .reset) :
    SameLamp s t ∨
    ∃ k i u, s.pending.head? = some k ∧ decode k = .ok i ∧ LampEffect i s.turnTaken u ∧ SameLamp u t := by
  rcases step_unit_cases h with ⟨hl, -⟩ | ⟨-, k, i, u, v, c, hk, hd, hu, rfl⟩ | ⟨hx, -⟩
  · exact .inl hl
  · exact .inr ⟨k, i, u, hk, hd, hu, by simp⟩
  · exact absurd hx hr

/-! ## The agreement of the unit and its engine -/

theorem LampEngineAgree.congr {s t : State} (h : LampEngineAgree s) (hl : SameLamp s t) (he : t.eng = s.eng) :
    LampEngineAgree t := by
  obtain ⟨hlife, hlevel, ⟨hr, hg, hb⟩, -⟩ := hl
  rcases lifecycle_cases s with ha | ht
  · exact lampEngineAgree_of_follows (hlife.trans ha) (by simpa only [he, hlevel, hr, hg, hb] using h.follows ha)
  · exact lampEngineAgree_of_off (hlife.trans ht) (by simpa only [he] using h.off_after_teardown ht)

theorem LampEngineAgree.timeStep {s : State} (h : LampEngineAgree s) (live : Native) :
    LampEngineAgree (s.setEngine (s.eng.timeStep live)) := by
  rcases lifecycle_cases s with ha | ht
  · exact lampEngineAgree_of_follows ha ((h.follows ha).timeStep live)
  · exact lampEngineAgree_of_off ht ((timeStep_enabled live s.eng).trans (h.off_after_teardown ht))

/-- Each effect on an active unit either has its engine follow the registers it leaves, or tears the unit down with the
engine off. -/
theorem LampEffect.keeps_lampEngineAgree {i : Instr} {s u : State} (h : LampEffect i s u) (ha : s.lifecycle = .active)
    (hs : LampEngineAgree s) : LampEngineAgree u := by
  have hf := hs.follows ha
  rcases h with rfl | ⟨l, t, -, rfl⟩ | ⟨-, hfading, rfl⟩ | ⟨r, g, b, t, -, rfl⟩ | ⟨id, ss, -, -, rfl⟩ |
    ⟨id, ss, -, -, rfl⟩ | ⟨-, rfl⟩
  · exact hs
  · exact lampEngineAgree_of_follows ha (hf.setLevel l t)
  · exact lampEngineAgree_of_follows ha (hf.abortFading hfading)
  · exact lampEngineAgree_of_follows ha (hf.setColor ⟨r, g, b⟩ t)
  · exact lampEngineAgree_of_follows ha hf
  · exact lampEngineAgree_of_follows ha hf
  · exact lampEngineAgree_of_off rfl rfl

theorem lampEngineAgree_resetStep (s : State) : LampEngineAgree s.resetStep := by
  refine lampEngineAgree_of_follows (resetStep_lifecycle s) ?_
  rw [resetStep_eng, construct_eq_reset]
  exact reset_follows

/-- Settles O57: each thing a step can do to the unit and the engine keeps them agreed. -/
theorem stepKeepsLampAndEngineAgreed : Obligations.StepKeepsLampAndEngineAgreed := by
  intro s t hs h
  rcases step_unit_cases h with ⟨hl, he | ⟨live, he⟩⟩ | ⟨ha, k, i, u, v, c, -, -, hu, rfl⟩ | ⟨-, rfl⟩
  · exact hs.congr hl he
  · exact (hs.timeStep live).congr hl he
  · have hturn : LampEngineAgree s.turnTaken := hs.congr (by simp) rfl
    exact (hu.keeps_lampEngineAgree ha hturn).congr (by simp) rfl
  · exact lampEngineAgree_resetStep s.turnTaken

/-- Settles O60: the reset engine follows the reset level and colour, and every slot is empty. -/
theorem resetMeetsTheInvariants : Obligations.ResetMeetsTheInvariants :=
  ⟨lampEngineAgree_of_follows rfl reset_follows, .inl rfl, .inl ⟨rfl, rfl⟩,
    ⟨rfl, fun _ hx _ => by rw [List.eq_of_mem_replicate hx]; rfl⟩, nofun⟩

/-- Settles O48: only a dispatch appends, and no agent drops a record. -/
theorem notifyOnlyGrowsByDispatch : Obligations.NotifyOnlyGrowsByDispatch := by
  intro s t h
  rcases step_cases h with ⟨-, hh⟩ | ⟨live, -, rfl⟩ | ⟨e, hx, rfl⟩ | ⟨-, rfl⟩
  · have hn : t.notify = s.turnTaken.notify := hostTurn_notify hh
    simp [hn]
  · simp
  · refine ⟨?_, fun _ => ⟨e, hx⟩⟩
    rcases engineEvent_cases e s.turnTaken with ⟨-, -, -, heq⟩ | ⟨-, heq⟩ <;> rw [heq]
    · exact List.prefix_append _ _
    · exact List.prefix_rfl
  · simp

/-- Settles O52: of the effects of a command two write mLevel. -/
theorem onlySetLevelAbortAndResetWriteTheLevel : Obligations.OnlySetLevelAbortAndResetWriteTheLevel := by
  intro s t h hne
  by_cases hr : s.nextTurn = .reset
  · exact .inl hr
  rcases step_lamp_cases h hr with ⟨-, hm, -⟩ | ⟨k, i, u, hk, hd, hu, -, hm, -⟩
  · exact absurd hm hne
  obtain ⟨hw | ⟨l, f, rfl⟩ | ⟨rfl, hf⟩, -⟩ := hu.writers
  · exact absurd (hm.trans hw) hne
  · exact .inr ⟨k, hk, .inl ⟨l, f, hd⟩⟩
  · exact .inr ⟨k, hk, .inr ⟨hd, hf⟩⟩

/-- Settles O53: register by register, the writers of the effect that was performed. -/
theorem writersOfTheLampRegisters : Obligations.WritersOfTheLampRegisters := by
  intro s t h hr
  rcases step_lamp_cases h hr with ⟨hlife, -, hcol, hslots⟩ | ⟨k, i, u, hk, hd, hu, hlife, -, ⟨kr, kg, kb⟩, hslots⟩
  · exact ⟨absurd hcol, absurd hslots, absurd hlife⟩
  obtain ⟨-, wcol, wslots, wlife⟩ := hu.writers
  refine ⟨fun hne => ?_, fun hne => ?_, fun hne => ?_⟩
  · rcases wcol with ⟨hr, hg, hb⟩ | ⟨r, g, b, f, rfl⟩
    · exact absurd ⟨kr.trans hr, kg.trans hg, kb.trans hb⟩ hne
    · exact ⟨k, r, g, b, f, hk, hd⟩
  · rcases wslots with hw | ⟨id, rfl | rfl⟩
    · exact absurd (hslots.trans hw) hne
    · exact ⟨k, id, hk, .inl hd⟩
    · exact ⟨k, id, hk, .inr hd⟩
  · rcases wlife with hw | ⟨ht, rfl⟩
    · exact absurd (hlife.trans hw) hne
    · exact ⟨hlife.trans ht, k, hk, hd⟩

end Sys2Proof.Machine
end

section
/-! SUPPORT. Whose turn it is and what that agent does to the host's list and index: completing, holding, discarding. -/

namespace Sys2Proof.Machine

/-! ## The host moves past its command, or the command holds -/

/-- On a running block a command moves the host past it, or it is LWAITFADE during a fade and holds (R24, R240). -/
theorem exec_moves_or_holds {i : Instr} {s t : State} (hs : s.faultCause = 0#8) (h : exec i s = .next t) :
    (MovedPast s t ∧ (i = .lwaitfade → s.eng.fading = false ∨ s.lifecycle = .tornDown)) ∨
    (i = .lwaitfade ∧ s.lifecycle = .active ∧ s.eng.fading = true ∧ t = s.hold) := by
  rcases exec_running_cases hs h with ⟨hl, v, rfl⟩ | ⟨a, rfl, rfl⟩ | ⟨-, ht, rfl⟩ | hhold |
    ⟨-, -, u, v, c, hu, rfl, -, hidle⟩
  · refine .inl ⟨by simp, ?_⟩
    rintro rfl
    exact absurd hl (by decide)
  · exact .inl ⟨by simp, nofun⟩
  · exact .inl ⟨by simp, fun _ => .inr ht⟩
  · exact .inr hhold
  · obtain ⟨-, -, -, -, -, -, hp, -, hi⟩ := hu.frame
    exact .inl ⟨by simp [hp, hi], fun hw => .inl (hidle hw)⟩

/-- Settles O16: LWAITFADE during a fade holds, and every other command moves the host on. -/
theorem onlyWaitFadeHolds : Obligations.OnlyWaitFadeHolds := by
  intro i s hs
  obtain ⟨t, h⟩ := exec_next i s
  refine ⟨t, h, ?_⟩
  rcases exec_moves_or_holds hs h with ⟨hmoved, hidle⟩ | ⟨rfl, ha, hf, rfl⟩
  · refine ⟨fun _ => hmoved, fun hw hf ha => ?_⟩
    simpa [hf, ha] using hidle hw
  · simp [hf, ha]

/-- Settles O34: a pure command completes with a result, or is a division by zero. -/
theorem pureCommandsChangeOnlyTheResult : Obligations.PureCommandsChangeOnlyTheResult := by
  intro i s t hl hs h
  rcases exec_pure hl with ⟨v, hv⟩ | ⟨a, -, hv⟩
  · rw [hv s hs] at h
    cases h
    simp [statOk]
  · rw [hv s hs] at h
    cases h
    simp [causeDivZero]

/-- Settles O9: the decoder's rejections are the words of R77, and the host's turn on one raises ILLEGAL_CMD. -/
theorem illegalWordsRaiseIllegalCmd : Obligations.IllegalWordsRaiseIllegalCmd := by
  refine ⟨fun k => (decode_error_iff k).symm, fun s k ks hx hp hs hw => ?_⟩
  obtain ⟨r, hd⟩ := (decode_error_iff k).2 hw
  have hstep : step s = .next (s.turnTaken.raiseFault causeIllegalCmd k.cmd) := by
    rw [step_of_nextTurn hx, takeTurn, hostTurn_of_decode_error (s := s.turnTaken) hp hd,
      illegalCommand_of_running (s := s.turnTaken) hs]
  exact ⟨_, hstep, by simp [causeIllegalCmd, turnTaken_draws_of_host hx]⟩

/-! ## The other agents -/

/-- Settles O46: the three cases of the engine's time step. -/
theorem engineStepAdvancesTheFade : Obligations.EngineStepAdvancesTheFade := by
  intro s live hx
  refine ⟨s.turnTaken.setEngine (s.eng.timeStep live), step_of_nextTurn hx, by simp, rfl, by simp, ?_⟩
  rw [setEngine_eng]
  rcases timeStep_cases live s.eng with ⟨hoff, heq⟩ | ⟨he, hf, hend, heq⟩ | ⟨he, hf, hleft, heq⟩ <;> rw [heq]
  · refine ⟨fun he hf => ?_, fun he hf => ?_, fun _ => rfl⟩
    · simp [he, hf] at hoff
    · simp [he, hf] at hoff
  · refine ⟨fun _ _ _ => rfl, fun _ _ hlt => absurd hend (by omega), ?_⟩
    simp [he, hf]
  · refine ⟨fun _ _ hle => absurd hleft (by omega), fun _ _ _ => rfl, ?_⟩
    simp [he, hf]

/-- Settles O7: the host's turn, listed or unlisted, runs what the decoder answers. -/
theorem stepRunsTheDecodedCommand : Obligations.StepRunsTheDecodedCommand := by
  intro s k ks ts i hp hd
  constructor
  · intro ht
    rw [step_of_turn ht]
    exact hostTurn_of_decode_ok hp hd
  · intro ht hidle
    rw [step_of_idle ht hidle, hostTurn_of_decode_ok hp hd]

/-- Settles O8: the step of each turn, and the turn that comes next. -/
theorem stepOfTheOtherAgents : Obligations.StepOfTheOtherAgents := by
  intro s ts
  refine ⟨fun live ht => step_of_turn ht, fun e ht => ⟨fun he => ?_, fun he => ?_⟩, fun ht => step_of_turn ht,
    fun ht hp => ?_, step_of_fading, fun ht hidle hp => ?_, fun x ht => nextTurn_of_cons ht, nextTurn_of_fading,
    nextTurn_of_idle⟩
  · simp [step_of_turn ht, takeTurn, State.engineEvent, he]
  · simp [step_of_turn ht, takeTurn, State.engineEvent, he]
  · rw [step_of_turn ht]
    exact hostTurn_of_no_command hp
  · rw [step_of_idle ht hidle, hostTurn_of_no_command hp]

/-- Settles O51, by evaluating the reset state. -/
theorem resetValues : Obligations.ResetValues := by
  unfold Obligations.ResetValues
  decide

/-! ## A discarded command -/

/-- The index the host reaches when it has moved past every command it still has (R24, R250). -/
def State.lastIndex (s : State) : Nat := s.index + s.pending.length

theorem lastIndex_of_movedPast {s t : State} (h : MovedPast s t) (hp : s.pending ≠ []) : t.lastIndex = s.lastIndex := by
  obtain ⟨hpending, -, hindex⟩ := h
  have hlen := List.length_pos_iff.2 hp
  simp only [State.lastIndex, hpending, hindex, List.length_tail]
  omega

theorem exec_lastIndex {i : Instr} {s t : State} (h : exec i s = .next t) (hp : s.pending ≠ []) :
    t.lastIndex = s.lastIndex := by
  by_cases hs : s.faultCause = 0#8
  · rcases exec_moves_or_holds hs h with ⟨hmoved, -⟩ | ⟨-, -, -, rfl⟩
    · exact lastIndex_of_movedPast hmoved hp
    · rfl
  · rw [exec_of_faulted hs] at h
    cases h
    rfl

theorem illegalCommand_lastIndex (w : Word) {s : State} (hp : s.pending ≠ []) :
    (illegalCommand w s).lastIndex = s.lastIndex := by
  by_cases hs : s.faultCause = 0#8
  · rw [illegalCommand_of_running hs]
    exact lastIndex_of_movedPast (by simp) hp
  · rw [illegalCommand, whenRunning_of_faulted hs]
    rfl

/-- A host's turn moves no command out of reach and brings none. -/
theorem hostTurn_lastIndex {s t : State} (h : hostTurn s = .next t) : t.lastIndex = s.lastIndex := by
  rcases hostTurn_cases h with ⟨-, rfl⟩ | ⟨k, ks, hp, ⟨i, -, hx⟩ | ⟨r, -, rfl⟩⟩
  · rfl
  · exact exec_lastIndex hx (by simp [hp])
  · exact illegalCommand_lastIndex k.cmd (by simp [hp])

/-- Reset takes a holding command out of the host's reach (R230, log 4). -/
theorem resetStep_lastIndex_of_holding {s : State} (hh : s.holding = true) (hp : s.pending ≠ []) :
    s.resetStep.lastIndex < s.lastIndex := by
  have hlen := List.length_pos_iff.2 hp
  simp only [State.lastIndex, resetStep_index, resetStep_pending, hh, if_true, List.length_tail]
  omega

theorem resetStep_lastIndex_le (s : State) : s.resetStep.lastIndex ≤ s.lastIndex := by
  simp only [State.lastIndex, resetStep_index, resetStep_pending]
  split
  · simp
  · exact le_rfl

/-- No step brings a command into the host's list. -/
theorem step_lastIndex_le {s t : State} (h : step s = .next t) : t.lastIndex ≤ s.lastIndex := by
  rcases step_cases h with ⟨-, hh⟩ | ⟨live, -, rfl⟩ | ⟨e, -, rfl⟩ | ⟨-, rfl⟩
  · exact (hostTurn_lastIndex hh).le
  · exact le_rfl
  · simp [State.lastIndex]
  · exact resetStep_lastIndex_le s.turnTaken

/-- However long a run goes on, the index stays within the host's reach at its start. -/
theorem run_index_le {n : Nat} {s t : State} (h : core.run n s = .next t) : t.index ≤ s.lastIndex := by
  induction n generalizing s with
  | zero =>
    cases h
    exact Nat.le_add_right _ _
  | succ n ih =>
    obtain ⟨u, hu⟩ := step_next s
    rw [run_succ hu] at h
    exact (ih h).trans (step_lastIndex_le hu)

/-- A run whose first step is reset, discarding a holding command, never reaches its program's end. -/
theorem run_index_lt_of_discard {n : Nat} {s t : State} (hx : s.nextTurn = .reset) (hh : s.holding = true)
    (hp : s.pending ≠ []) (h : core.run n s = .next t) : t.index < s.lastIndex := by
  cases n with
  | zero =>
    cases h
    exact Nat.lt_add_of_pos_right (List.length_pos_iff.2 hp)
  | succ n =>
    have hreset : step s = .next s.turnTaken.resetStep := step_of_nextTurn hx
    rw [run_succ hreset] at h
    exact (run_index_le h).trans_lt (resetStep_lastIndex_of_holding (s := s.turnTaken) hh hp)

/-- Settles O50: reset drops a holding command from the list and leaves the index, so no run reaches the end. -/
theorem resetDiscardsAHoldingCommand : Obligations.ResetDiscardsAHoldingCommand := by
  refine fun s hx => ⟨⟨s.turnTaken.resetStep, step_of_nextTurn hx, rfl, rfl, fun hh => ?_, fun hh => ?_⟩, ?_⟩
  · simp [hh]
  · simp [hh]
  · rintro hh hp n ⟨-, t, hrun, hend⟩
    exact (run_index_lt_of_discard hx hh hp hrun).ne hend

end Sys2Proof.Machine
end

section
/-! SUPPORT. Noninterference of the pure units: what the rest of the block holds does not reach their answer (R63). -/

namespace Sys2Proof.Machine

/-- Settles O33: on both blocks a pure command completes with the same word, or both divide by zero. -/
theorem pureUnitsAreDeterministic : Obligations.PureUnitsAreDeterministic := by
  intro i s s' t t' hl hs hs' h h'
  rcases exec_pure hl with ⟨v, hv⟩ | ⟨a, -, hv⟩
  · cases (hv s hs).symm.trans h
    cases (hv s' hs').symm.trans h'
    simp [hs, hs']
  · cases (hv s hs).symm.trans h
    cases (hv s' hs').symm.trans h'
    simp [causeDivZero]

end Sys2Proof.Machine
end

section
/-! SUPPORT. Decode and encode agree: a row of R73 reads its operands back from the words `encode` puts them in, and a
legal command word is its opcode alone. -/

namespace Sys2Proof

/-! ## An instruction's words -/

/-- The command word of an instruction is the opcode its line names (R70, R79). -/
theorem encode_cmd (i : Instr) : (encode i).cmd = opcodeWord i.line.opc := by
  cases i <;> rfl

/-- LSETCOLOR's upper channel is cut back from `A`, whose lower one does not reach into it (R74). -/
theorem fieldAt_packed_channels (r g : Native) : fieldAt (r.setWidth 32 ||| g.setWidth 32 <<< 16) 16 12 = g := by
  ext j hj
  simp [fieldAt, hj, show 16 + j < 32 by omega, BitVec.getLsbD_of_ge r (16 + j) (by omega)]

/-- The row of an instruction's opcode reads its operands back from the words that carry them. -/
theorem decodeOpcode_encode (i : Instr) :
    decodeOpcode i.line.opc (encode i).a (encode i).b (encode i).c = some i := by
  cases i with
  | menc8 | menc8i | menc16 | menc16i | mdec8 | lsetlevel | ld2n | ln2d =>
    simp [decodeOpcode, encode, Instr.line]
  | lsetcolor r g b t =>
    simp [decodeOpcode, encode, Instr.line, fieldAt_packed_channels]
  | _ => rfl

theorem decode_encode (i : Instr) : decode (encode i) = .ok i := by
  have hwords : encode i = ⟨opcodeWord i.line.opc, (encode i).a, (encode i).b, (encode i).c⟩ := by
    rw [← encode_cmd]
  rw [hwords]
  exact decode_opcodeWord (decodeOpcode_encode i)

/-- Settles O3: `RSV` is 0, and the opcode's row reads every operand back. -/
theorem decodeOfEncodeIsTheInstruction : Obligations.DecodeOfEncodeIsTheInstruction :=
  decode_encode

/-- A legal word is the word of its opcode, which its instruction's encoding carries too. -/
theorem encode_cmd_of_decode {k : Command} {i : Instr} (h : decode k = .ok i) : (encode i).cmd = k.cmd := by
  obtain ⟨hrsv, hrow⟩ := decodeOpcode_of_decode h
  rw [encode_cmd_of_decodeOpcode hrow, ← word_of_rsvField_eq_zero hrsv]

/-- Settles O4: a legal word has `RSV` 0, and its opcode is its instruction's. -/
theorem legalWordIsItsInstructionsWord : Obligations.LegalWordIsItsInstructionsWord :=
  fun _ _ => encode_cmd_of_decode

/-! ## The rows at written-out command words -/

/-- A command word with `RSV` 0 decodes by its opcode's row. -/
theorem decode_of_row {w a b c : Word} {i : Instr} (hrsv : rsvField w = 0#24)
    (hrow : decodeOpcode (opcField w) a b c = some i) : decode ⟨w, a, b, c⟩ = .ok i := by
  rw [word_of_rsvField_eq_zero hrsv]
  exact decode_opcodeWord hrow

/-- Settles O2: each row by its word's opcode, the operands cut as the row cuts them. -/
theorem everyOpcodeReadsItsOperandFields : Obligations.EveryOpcodeReadsItsOperandFields := by
  intro a b c
  and_intros
  all_goals exact decode_of_row rfl rfl

/-- Settles O1: five commands of literal words, by evaluating the decoder. -/
theorem specWordsDecode : Obligations.SpecWordsDecode := by
  unfold Obligations.SpecWordsDecode
  decide

end Sys2Proof
end

section
/-! SUPPORT. The assembler of R79: what placing an operand does to a command, field by field, and which instruction the
words of each row encode. -/

namespace Sys2Proof

/-! ## Placing one operand -/

section placing

variable (w a b c : Word) (v : Int)

@[simp] theorem placeOperand_aSigned :
    placeOperand ⟨w, a, b, c⟩ Fields.aSigned v = ⟨w, a ||| BitVec.ofInt 32 v, b, c⟩ := by
  simp [placeOperand, Fields.aSigned, Field.width]

@[simp] theorem placeOperand_bSigned :
    placeOperand ⟨w, a, b, c⟩ Fields.bSigned v = ⟨w, a, b ||| BitVec.ofInt 32 v, c⟩ := by
  simp [placeOperand, Fields.bSigned, Field.width]

@[simp] theorem placeOperand_aWord :
    placeOperand ⟨w, a, b, c⟩ Fields.aWord v = ⟨w, a ||| BitVec.ofInt 32 v, b, c⟩ := by
  simp [placeOperand, Fields.aWord, Field.width]

@[simp] theorem placeOperand_bWord :
    placeOperand ⟨w, a, b, c⟩ Fields.bWord v = ⟨w, a, b ||| BitVec.ofInt 32 v, c⟩ := by
  simp [placeOperand, Fields.bWord, Field.width]

@[simp] theorem placeOperand_cWord :
    placeOperand ⟨w, a, b, c⟩ Fields.cWord v = ⟨w, a, b, c ||| BitVec.ofInt 32 v⟩ := by
  simp [placeOperand, Fields.cWord, Field.width]

@[simp] theorem placeOperand_aHalf :
    placeOperand ⟨w, a, b, c⟩ Fields.aHalf v = ⟨w, a ||| (BitVec.ofInt 16 v).setWidth 32, b, c⟩ := by
  simp [placeOperand, Fields.aHalf, Field.width]

@[simp] theorem placeOperand_aByte :
    placeOperand ⟨w, a, b, c⟩ Fields.aByte v = ⟨w, a ||| (BitVec.ofInt 8 v).setWidth 32, b, c⟩ := by
  simp [placeOperand, Fields.aByte, Field.width]

@[simp] theorem placeOperand_aRed :
    placeOperand ⟨w, a, b, c⟩ Fields.aRed v = ⟨w, a ||| (BitVec.ofInt 12 v).setWidth 32, b, c⟩ := by
  simp [placeOperand, Fields.aRed, Field.width]

@[simp] theorem placeOperand_aGreen :
    placeOperand ⟨w, a, b, c⟩ Fields.aGreen v = ⟨w, a ||| (BitVec.ofInt 12 v).setWidth 32 <<< 16, b, c⟩ :=
  rfl

@[simp] theorem placeOperand_bBlue :
    placeOperand ⟨w, a, b, c⟩ Fields.bBlue v = ⟨w, a, b ||| (BitVec.ofInt 12 v).setWidth 32, c⟩ := by
  simp [placeOperand, Fields.bBlue, Field.width]

end placing

/-! ## The line of an instruction -/

/-- A line whose operands fit the fields of its row assembles to the row's word with each operand placed. -/
theorem assemble_of_fit {o : Byte} {fs : List Field} {vs : List Int} (hf : fieldsOf o = some fs)
    (hfit : fitAll fs vs = true) : assemble ⟨o, vs⟩ = some (placeAll ⟨opcodeWord o, 0#32, 0#32, 0#32⟩ fs vs) := by
  simp [assemble, AsmLine.wellFormed, hf, hfit]

/-- What the assembler accepts is a row's word with operands that fit placed. -/
theorem assemble_eq_some {l : AsmLine} {k : Command} (h : assemble l = some k) :
    ∃ fs, fieldsOf l.opc = some fs ∧ fitAll fs l.operands = true ∧
      k = placeAll ⟨opcodeWord l.opc, 0#32, 0#32, 0#32⟩ fs l.operands := by
  cases hf : fieldsOf l.opc with
  | none => simp [assemble, hf] at h
  | some fs =>
    simp only [assemble, AsmLine.wellFormed, hf, Option.ite_none_right_eq_some, Option.some.injEq] at h
    exact ⟨fs, rfl, h.1, h.2.symm⟩

/-- Every instruction's words are the canonical ones of its line. -/
theorem instr_canonical : ∀ i : Instr, Laws.Canonical.Statement i
  | .fxfromint n => Laws.Canonical.fxfromint n
  | .fxtoint v => Laws.Canonical.fxtoint v
  | .fxadd a b => Laws.Canonical.fxadd a b
  | .fxsub a b => Laws.Canonical.fxsub a b
  | .fxmul a b => Laws.Canonical.fxmul a b
  | .fxdiv a b => Laws.Canonical.fxdiv a b
  | .fxeq a b => Laws.Canonical.fxeq a b
  | .fxne a b => Laws.Canonical.fxne a b
  | .fxlt a b => Laws.Canonical.fxlt a b
  | .fxle a b => Laws.Canonical.fxle a b
  | .fxgt a b => Laws.Canonical.fxgt a b
  | .fxge a b => Laws.Canonical.fxge a b
  | .menc8 p => Laws.Canonical.menc8 p
  | .menc8i p => Laws.Canonical.menc8i p
  | .menc16 p => Laws.Canonical.menc16 p
  | .menc16i p => Laws.Canonical.menc16i p
  | .mdec8 p => Laws.Canonical.mdec8 p
  | .mdec16 p => Laws.Canonical.mdec16 p
  | .lsetlevel l t => Laws.Canonical.lsetlevel l t
  | .lgetlevel => Laws.Canonical.lgetlevel
  | .lisfading => Laws.Canonical.lisfading
  | .labort => Laws.Canonical.labort
  | .lwaitfade => Laws.Canonical.lwaitfade
  | .lsetcolor r g b t => Laws.Canonical.lsetcolor r g b t
  | .lregister id => Laws.Canonical.lregister id
  | .lunregister id => Laws.Canonical.lunregister id
  | .ld2n v => Laws.Canonical.ld2n v
  | .ln2d d => Laws.Canonical.ln2d d
  | .lteardown => Laws.Canonical.lteardown

/-- The operands of an instruction's line, placed in their fields, make its words. -/
theorem placeAll_line {i : Instr} {fs : List Field} (hf : fieldsOf i.line.opc = some fs) :
    placeAll ⟨opcodeWord i.line.opc, 0#32, 0#32, 0#32⟩ fs i.line.operands = encode i := by
  cases i
  all_goals
    cases hf
    simp [Instr.line, placeAll, encode]

theorem assemble_line (i : Instr) : assemble i.line = some (encode i) := by
  obtain ⟨hwf, -, -⟩ := instr_canonical i
  cases hf : fieldsOf i.line.opc with
  | none => simp [Instr.wellFormed, AsmLine.wellFormed, hf] at hwf
  | some fs =>
    simp only [Instr.wellFormed, AsmLine.wellFormed, hf] at hwf
    rw [← placeAll_line hf]
    exact assemble_of_fit hf hwf

/-! ## Whatever the assembler accepts -/

open Fields in
/-- The rows of R74 by the shape of their operand fields. -/
theorem fieldsOf_cases {o : Byte} {fs : List Field} (h : fieldsOf o = some fs) :
    (fs = [] ∧ o ∈ [0x41#8, 0x42#8, 0x43#8, 0x44#8, 0x4F#8]) ∨
    (fs = [aSigned] ∧ o ∈ [0x01#8, 0x02#8]) ∨
    (fs = [aSigned, bSigned] ∧
      o ∈ [0x03#8, 0x04#8, 0x05#8, 0x06#8, 0x08#8, 0x09#8, 0x0A#8, 0x0B#8, 0x0C#8, 0x0D#8]) ∨
    (fs = [aByte] ∧ o ∈ [0x20#8, 0x21#8]) ∨
    (fs = [aHalf] ∧ o ∈ [0x22#8, 0x23#8, 0x24#8, 0x48#8, 0x49#8]) ∨
    (fs = [aWord] ∧ o ∈ [0x26#8, 0x46#8, 0x47#8]) ∨
    (fs = [aHalf, bWord] ∧ o = 0x40#8) ∨
    (fs = [aRed, aGreen, bBlue, cWord] ∧ o = 0x45#8) := by
  unfold fieldsOf at h
  split at h <;> cases h
  all_goals
    rename_i ho
    have hlit := congrArg (BitVec.ofNat 8) ho
    rw [BitVec.ofNat_toNat, BitVec.setWidth_eq] at hlit
    subst hlit
    decide

theorem length_of_fitAll {fs : List Field} {vs : List Int} (h : fitAll fs vs = true) : vs.length = fs.length := by
  induction fs generalizing vs with
  | nil => cases vs with
    | nil => rfl
    | cons v vs => simp [fitAll] at h
  | cons f fs ih => cases vs with
    | nil => simp [fitAll] at h
    | cons v vs =>
      simp only [fitAll, Bool.and_eq_true] at h
      exact congrArg (· + 1) (ih h.2)

/-- Words that a row reads as an instruction, and that this instruction encodes to, decode to it. -/
theorem exists_decode_of_row {o : Byte} {a b c : Word} {i : Instr} (hrow : decodeOpcode o a b c = some i)
    (hwords : encode i = ⟨opcodeWord o, a, b, c⟩) :
    ∃ i, decode ⟨opcodeWord o, a, b, c⟩ = .ok i ∧ encode i = ⟨opcodeWord o, a, b, c⟩ :=
  ⟨i, decode_opcodeWord hrow, hwords⟩

/-- As many operands as a row has fields, placed in them, make the words of the instruction the row reads there: the
cases are the shapes of the rows. -/
theorem placeAll_decodes {o : Byte} {fs : List Field} {vs : List Int} {k : Command} (hf : fieldsOf o = some fs)
    (hlen : vs.length = fs.length) (hk : placeAll ⟨opcodeWord o, 0#32, 0#32, 0#32⟩ fs vs = k) :
    ∃ i, decode k = .ok i ∧ encode i = k := by
  rcases fieldsOf_cases hf with ⟨rfl, ho⟩ | ⟨rfl, ho⟩ | ⟨rfl, ho⟩ | ⟨rfl, ho⟩ | ⟨rfl, ho⟩ | ⟨rfl, ho⟩ | ⟨rfl, rfl⟩ |
    ⟨rfl, rfl⟩
  · obtain rfl := List.length_eq_zero_iff.1 hlen
    subst hk
    fin_cases ho <;> exact exists_decode_of_row rfl rfl
  · obtain ⟨v, rfl⟩ := List.length_eq_one_iff.1 hlen
    simp only [placeAll, placeOperand_aSigned, BitVec.zero_or] at hk
    subst hk
    fin_cases ho <;> exact exists_decode_of_row rfl rfl
  · obtain ⟨v, u, rfl⟩ := List.length_eq_two.1 hlen
    simp only [placeAll, placeOperand_aSigned, placeOperand_bSigned, BitVec.zero_or] at hk
    subst hk
    fin_cases ho <;> exact exists_decode_of_row rfl rfl
  · obtain ⟨v, rfl⟩ := List.length_eq_one_iff.1 hlen
    simp only [placeAll, placeOperand_aByte, BitVec.zero_or] at hk
    subst hk
    fin_cases ho <;> exact exists_decode_of_row rfl (by simp [encode])
  · obtain ⟨v, rfl⟩ := List.length_eq_one_iff.1 hlen
    simp only [placeAll, placeOperand_aHalf, BitVec.zero_or] at hk
    subst hk
    fin_cases ho <;> exact exists_decode_of_row rfl (by simp [encode])
  · obtain ⟨v, rfl⟩ := List.length_eq_one_iff.1 hlen
    simp only [placeAll, placeOperand_aWord, BitVec.zero_or] at hk
    subst hk
    fin_cases ho <;> exact exists_decode_of_row rfl rfl
  · obtain ⟨v, u, rfl⟩ := List.length_eq_two.1 hlen
    simp only [placeAll, placeOperand_aHalf, placeOperand_bWord, BitVec.zero_or] at hk
    subst hk
    exact exists_decode_of_row rfl (by simp [encode])
  · obtain ⟨r, g, b, t, rfl⟩ := List.length_eq_four.1 hlen
    simp only [placeAll, placeOperand_aRed, placeOperand_aGreen, placeOperand_bBlue, placeOperand_cWord,
      BitVec.zero_or] at hk
    subst hk
    exact exists_decode_of_row rfl (by simp [encode, fieldAt_packed_channels])

/-- Settles O5: a line of an instruction places its operands in the words `encode` names, and operands that fit a row
make the words of an instruction. -/
theorem assemblerProducesEncodings : Obligations.AssemblerProducesEncodings := by
  refine ⟨assemble_line, fun l k h => ?_⟩
  obtain ⟨fs, hf, hfit, hk⟩ := assemble_eq_some h
  exact placeAll_decodes hf (length_of_fitAll hfit) hk.symm

/-! ## The pseudo-instructions (R80) -/

/-- An operand of FXNEG as a hex literal: a word's unsigned value fits a field read as s32 (R79). -/
theorem fits_signed_toNat (f : Field) (hs : f.signed = true) (p : Word) : f.fits p.toNat = true := by
  have hp : p.toNat < 4294967296 := p.isLt
  rw [Field.fits, if_pos hs, decide_eq_true_eq]
  omega

theorem assemble_pseudoFxneg_toNat (a : Word) :
    assemble (pseudoFxneg a.toNat) = some (encode (.fxsub 0#32 a)) := by
  have hfit : fitAll [Fields.aSigned, Fields.bSigned] [0, (a.toNat : Int)] = true :=
    Laws.Canonical.fitAll_cons rfl (Laws.Canonical.fitAll_cons (fits_signed_toNat _ rfl a) rfl)
  rw [pseudoFxneg, assemble_of_fit rfl hfit]
  simp [placeAll, encode]

theorem complement32_toNat (p : Word) : complement32 p.toNat = (p ^^^ 0xFFFFFFFF#32).toNat := by
  simp [complement32]

/-- Settles O6: each pseudo-instruction is the line of the command it stands for, but for the hex form of FXNEG's
operand. -/
theorem pseudoInstructionsExpand : Obligations.PseudoInstructionsExpand := by
  refine ⟨fun a => ⟨assemble_line (.fxsub 0#32 a), assemble_pseudoFxneg_toNat a⟩, rfl, fun p hp => ?_, fun p => ?_,
    fun l => assemble_line (.lsetlevel l 0#32)⟩
  · have hcut : (p ^^^ 0xFFFFFFFF#32).toNat = ((p ^^^ 0xFFFFFFFF#32).setWidth 16).toNat := by
      rw [BitVec.toNat_setWidth, Nat.mod_eq_of_lt hp]
    rw [pseudoMdec8i, complement32_toNat, hcut]
    exact assemble_line (.mdec8 _)
  · rw [pseudoMdec16i, complement32_toNat]
    exact assemble_line (.mdec16 _)

end Sys2Proof
end

section
/-! SUPPORT. What a faulted block does on any step, and the order in which a running block checks a command (R76, R203,
R209). -/

namespace Sys2Proof.Machine

/-! ## A faulted block -/

/-- On a faulted block the host's turn leaves the state as it is, or its command holds (R203). -/
theorem hostTurn_of_faulted {s t : State} (hs : s.faultCause ≠ 0#8) (h : hostTurn s = .next t) :
    t = s ∨ t = s.hold := by
  rcases hostTurn_cases h with ⟨-, rfl⟩ | ⟨k, ks, -, ⟨i, -, hx⟩ | ⟨r, -, rfl⟩⟩
  · exact .inl rfl
  · rw [exec_of_faulted hs] at hx
    cases hx
    exact .inr rfl
  · exact .inr (whenRunning_of_faulted hs _)

/-- The host's step on a faulted block uses up its turn, and may set the holding mark. -/
theorem step_of_faulted_host {s t : State} (hs : s.faultCause ≠ 0#8) (hx : s.nextTurn = .host) (h : step s = .next t) :
    t = s.turnTaken ∨ t = s.turnTaken.hold := by
  rw [step_of_nextTurn hx] at h
  exact hostTurn_of_faulted (s := s.turnTaken) hs h

/-- On a faulted block an engine event is dropped (R212). -/
theorem engineEvent_of_faulted {s : State} (hs : s.faultCause ≠ 0#8) (e : Byte) : s.engineEvent e = s := by
  rcases engineEvent_cases e s with ⟨-, hrun, -⟩ | ⟨-, heq⟩
  · exact absurd hrun hs
  · exact heq

/-- Settles O10: the host holds, an event is dropped, and only the engine's own step and reset do anything. -/
theorem faultedBlockIsStoppedUntilReset : Obligations.FaultedBlockIsStoppedUntilReset := by
  refine ⟨fun i s hs => exec_of_faulted hs i, fun s t hs h => ?_⟩
  rcases step_cases h with ⟨hx, -⟩ | ⟨live, hx, rfl⟩ | ⟨e, hx, rfl⟩ | ⟨hx, rfl⟩
  · rcases step_of_faulted_host hs hx h with rfl | rfl
    · simp [hx]
    · simp [hx]
  · simp [hx]
  · rw [engineEvent_of_faulted (s := s.turnTaken) hs]
    simp [hx]
  · simp [hx, causeNone]

/-! ## The checks of a running block -/

/-- A word of R73's LAMP rows decodes to an instruction of the LAMP unit (R72). -/
theorem decode_of_lampWord {k : Command} (h : LampWord k.cmd) : ∃ i, decode k = .ok i ∧ i.isLamp = true := by
  have hlegal : ¬ IllegalWord k.cmd := by
    rw [LampWord] at h
    rw [IllegalWord, ReservedOpcode]
    omega
  cases hd : decode k with
  | error r => exact absurd ((decode_error_iff k).1 ⟨r, hd⟩) hlegal
  | ok i =>
    refine ⟨i, rfl, ?_⟩
    have hunit : fieldAt k.cmd 5 3 = 0b010#3 := by
      rw [fieldAt_eq_shift, ← BitVec.toNat_inj]
      simp only [BitVec.toNat_setWidth, BitVec.toNat_ushiftRight, BitVec.toNat_ofNat, Nat.shiftRight_eq_div_pow]
      rw [LampWord] at h
      omega
    simp [Instr.isLamp, commandWord, encode_cmd_of_decode hd, hunit]

/-- R105, R207: a zero divisor raises `DIV_ZERO`. -/
theorem exec_fxdiv_zero {s : State} (hs : s.faultCause = 0#8) (a : Word) :
    exec (.fxdiv a 0#32) s = .next (s.raiseFault causeDivZero 0x06#32) :=
  congrArg _ (whenRunning_of_running hs _)

/-- Settles O12: the host's turn on a faulted block, on an illegal word, on a LAMP word after teardown, and on a division
by zero. -/
theorem faultChecksAreInOrder : Obligations.FaultChecksAreInOrder := by
  intro s k ks hx hp
  have hturn : step s = hostTurn s.turnTaken := step_of_nextTurn hx
  refine ⟨fun hs => ?_, fun hs hw => ?_, fun hs hw ht => ?_, fun hs hw hb => ?_⟩
  · obtain ⟨t, h⟩ := step_next s
    rcases step_of_faulted_host hs hx h with rfl | rfl
    · exact ⟨_, h, by simp⟩
    · exact ⟨_, h, by simp⟩
  · obtain ⟨-, hillegal⟩ := illegalWordsRaiseIllegalCmd
    obtain ⟨t, h, hcause, -⟩ := hillegal s k ks hx hp hs hw
    exact ⟨t, h, hcause⟩
  · obtain ⟨i, hd, hl⟩ := decode_of_lampWord hw
    rw [hturn, hostTurn_of_decode_ok (s := s.turnTaken) hp hd, exec_lamp_tornDown (s := s.turnTaken) hl hs ht]
    exact ⟨_, rfl, rfl⟩
  · have hd : decode k = .ok (.fxdiv k.a 0#32) := by
      obtain ⟨w, a, b, c⟩ := k
      subst hw hb
      exact decode_of_row rfl rfl
    rw [hturn, hostTurn_of_decode_ok (s := s.turnTaken) hp hd, exec_fxdiv_zero (s := s.turnTaken) hs]
    exact ⟨_, rfl, rfl⟩

end Sys2Proof.Machine
end

section
/-! SUPPORT. Where a fault comes from: the host's turn, its command and the cause (R202). -/

namespace Sys2Proof.Machine

/-- The three rows of R202's table: the cause, and the command that raises it at a block in this life-cycle state. -/
def FaultRow (life : Lifecycle) (k : Command) (cause : Byte) : Prop :=
  (cause = 0x01#8 ∧ IllegalWord k.cmd) ∨
  (cause = 0x02#8 ∧ k.cmd = 0x06#32 ∧ k.b = 0#32) ∨
  (cause = 0x03#8 ∧ LampWord k.cmd ∧ life = .tornDown)

/-- FXDIV's operand and its row's word are the command's own (R73, R74). -/
theorem command_of_decode_fxdiv {k : Command} {a b : Word} (h : decode k = .ok (.fxdiv a b)) :
    k.cmd = 0x06#32 ∧ k.b = b := by
  have hcmd : k.cmd = 0x06#32 := (encode_cmd_of_decode h).symm
  obtain ⟨-, hrow⟩ := decodeOpcode_of_decode h
  rw [hcmd] at hrow
  cases hrow
  exact ⟨hcmd, rfl⟩

/-- A command that faults a running block is an FXDIV by zero or a LAMP command after teardown. -/
theorem exec_fault_cases {k : Command} {i : Instr} {s t : State} (hd : decode k = .ok i) (hs : s.faultCause = 0#8)
    (h : exec i s = .next t) (ht : t.faultCause ≠ 0#8) :
    t.faultCmd = k.cmd ∧ FaultRow s.lifecycle k t.faultCause := by
  rcases exec_running_cases hs h with ⟨-, v, rfl⟩ | ⟨a, rfl, rfl⟩ | ⟨hl, hlife, rfl⟩ | ⟨-, -, -, rfl⟩ |
    ⟨-, -, u, v, c, hu, rfl, -⟩
  · exact absurd hs ht
  · obtain ⟨hcmd, hb⟩ := command_of_decode_fxdiv hd
    exact ⟨hcmd.symm, .inr (.inl ⟨rfl, hcmd, hb⟩)⟩
  · have hcmd : commandWord i = k.cmd := encode_cmd_of_decode hd
    exact ⟨hcmd, .inr (.inr ⟨rfl, hcmd ▸ lampWord_commandWord hl, hlife⟩)⟩
  · exact absurd hs ht
  · obtain ⟨-, -, hcause, -⟩ := hu.frame
    exact absurd (hcause.trans hs) ht

/-- The host's turn faults a running block by its command, and by a row of R202's table. -/
theorem hostTurn_fault_cases {s t : State} (hs : s.faultCause = 0#8) (h : hostTurn s = .next t)
    (ht : t.faultCause ≠ 0#8) :
    ∃ k, s.pending.head? = some k ∧ t.faultCmd = k.cmd ∧ FaultRow s.lifecycle k t.faultCause := by
  rcases hostTurn_cases h with ⟨-, rfl⟩ | ⟨k, ks, hp, ⟨i, hd, hx⟩ | ⟨r, hd, rfl⟩⟩
  · exact absurd hs ht
  · exact ⟨k, by simp [hp], exec_fault_cases hd hs hx ht⟩
  · rw [illegalCommand_of_running hs]
    exact ⟨k, by simp [hp], rfl, .inl ⟨rfl, (decode_error_iff k).1 ⟨r, hd⟩⟩⟩

/-- Settles O13: the engine's step and event keep FAULT, reset clears it, and the host's turn faults by R202's table. -/
theorem onlyThreeConditionsRaiseAFault : Obligations.OnlyThreeConditionsRaiseAFault := by
  intro s t hs h ht
  rcases step_cases h with ⟨hx, hh⟩ | ⟨live, -, rfl⟩ | ⟨e, -, rfl⟩ | ⟨-, rfl⟩
  · exact ⟨hx, hostTurn_fault_cases (s := s.turnTaken) hs hh ht⟩
  · exact absurd hs ht
  · exact absurd ((engineEvent_faultCause e s.turnTaken).trans hs) ht
  · exact absurd rfl ht

end Sys2Proof.Machine
end

section
/-! SUPPORT. Narrowing commutes with addition, subtraction and multiplication, and the FXP commands other than FXDIV
by their exact values (R100 to R104, R110 to R117). -/

namespace Sys2Proof.Machine

/-! ## Words and integers -/

theorem wrap32_add (x y : Int) : wrap32 (x + y) = wrap32 x + wrap32 y := BitVec.ofInt_add x y

theorem wrap32_sub (x y : Int) : wrap32 (x - y) = wrap32 x - wrap32 y := by
  rw [eq_sub_iff_add_eq, ← wrap32_add, Int.sub_add_cancel]

theorem wrap32_mul (x y : Int) : wrap32 (x * y) = wrap32 x * wrap32 y := BitVec.ofInt_mul x y

theorem s32_inj {a b : Word} : s32 a = s32 b ↔ a = b := BitVec.toInt_inj

theorem s32_ne_zero {b : Word} (hb : b ≠ 0#32) : s32 b ≠ 0 := fun h => hb (s32_inj.1 h)

/-! ## FXADD and FXSUB -/

theorem fxAdd_eq (a b : Word) : fxAdd a b = a + b := by
  rw [fxAdd, wrap32_add, wrap32_s32, wrap32_s32]

theorem fxSub_eq (a b : Word) : fxSub a b = a - b := by
  rw [fxSub, wrap32_sub, wrap32_s32, wrap32_s32]

/-- Settles O19: narrowing the exact sum and difference is addition and subtraction of words. -/
theorem addAndSubtractWrap : Obligations.AddAndSubtractWrap :=
  fun a b _ hs => ⟨⟨_, exec_fxadd hs a b, fxAdd_eq a b, rfl, hs⟩, ⟨_, exec_fxsub hs a b, fxSub_eq a b, rfl, hs⟩⟩

/-! ## FXFROMINT and FXTOINT -/

/-- The source's two shifts (R100). -/
theorem fxFromInt_eq_shift (n : Word) : fxFromInt n = (n <<< 16) <<< 13 := by
  have hscale : wrap32 fxScale = BitVec.twoPow 32 29 := by decide
  rw [← BitVec.shiftLeft_add, BitVec.shiftLeft_eq_mul_twoPow, fxFromInt, wrap32_mul, wrap32_s32, hscale]

/-- What FXFROMINT leaves: the residue of `n` modulo 8 in -4 .. 3, scaled (R100, R117). -/
theorem s32_fxFromInt (n : Word) : s32 (fxFromInt n) = ((s32 n + 4) % 8 - 4) * fxScale := by
  rw [fxFromInt, s32, wrap32, BitVec.toInt_ofInt, Int.bmod_def, fxScale]
  omega

/-- Rounding to the nearest integer is undone by scaling (R117). -/
theorem fxToInt_of_scaled {v : Word} {r : Int} (h : s32 v = r * fxScale) : fxToInt v = wrap32 r := by
  have hr : floorDiv (s32 v + fxHalf) fxScale = r :=
    floorDiv_eq (by decide) (by rw [h, fxHalf]; omega) (by rw [h, fxHalf, fxScale]; omega)
  rw [fxToInt, hr]

/-- Settles O17: the two shifts, and the residue modulo 8 that the result is scaled from. -/
theorem fromIntScalesAndWraps : Obligations.FromIntScalesAndWraps := by
  refine ⟨fun n s hs => ⟨_, exec_fxfromint hs n, rfl, fxFromInt_eq_shift n, fun h1 h2 => ?_, rfl, hs⟩,
    fun n m hnm => ?_⟩
  · have h := s32_fxFromInt n
    simp only [s32, fxScale] at h
    simp only [complete_res]
    omega
  · have hres : (s32 n + 4) % 8 = (s32 m + 4) % 8 := by
      simp only [s32, BitVec.toInt_eq_toNat_cond]
      omega
    rw [← s32_inj, s32_fxFromInt, s32_fxFromInt, hres]

/-- Settles O18: the rounded-down quotient by its two inequalities, whose integer the two shifts compute as well. -/
theorem toIntRoundsToNearest : Obligations.ToIntRoundsToNearest := by
  intro v s hs
  obtain ⟨hle, hlt⟩ := floorDiv_spec (s32 v + fxHalf) (d := fxScale) (by decide)
  obtain ⟨hmin, hmax⟩ := s32_bounds v
  refine ⟨_, floorDiv (s32 v + fxHalf) fxScale, exec_fxtoint hs v, rfl, ?_⟩
  generalize floorDiv (s32 v + fxHalf) fxScale = r at hle hlt
  simp only [s32, fxScale, fxHalf] at hle hlt hmin hmax
  refine ⟨by omega, by omega, by omega, by omega, by omega, rfl, hs⟩

/-- Settles O25: FXFROMINT leaves a scaled residue, and FXTOINT takes the scale off. -/
theorem integerRoundTrip : Obligations.IntegerRoundTrip := by
  intro n s hs
  have hround : fxToInt (fxFromInt n) = wrap32 ((s32 n + 4) % 8 - 4) := fxToInt_of_scaled (s32_fxFromInt n)
  have ht : (s.complete (fxFromInt n) statOk).faultCause = 0#8 := hs
  refine ⟨_, _, exec_fxfromint hs n, exec_fxtoint ht (fxFromInt n), hround, fun h1 h2 => ?_⟩
  have hn : (s32 n + 4) % 8 - 4 = s32 n := by
    simp only [s32]
    omega
  exact hround.trans (by rw [hn, wrap32_s32])

/-! ## FXMUL -/

/-- Settles O20: rounding the biased product down, by its two inequalities. -/
theorem multiplyRoundsToNearest : Obligations.MultiplyRoundsToNearest := by
  intro a b s hs
  obtain ⟨hle, hlt⟩ := floorDiv_spec (s32 a * s32 b + fxHalf) (d := fxScale) (by decide)
  exact ⟨_, _, exec_fxmul hs a b, rfl, hle, hlt, rfl, hs⟩

/-! ## The comparisons -/

/-- The command completes on its block with this result, `STAT` OK, and no fault. -/
def AnswersOk (i : Instr) (s : State) (v : Word) : Prop :=
  ∃ t, exec i s = .next t ∧ t.res = v ∧ t.stat = 0x00#8 ∧ t.faultCause = 0x00#8

theorem answersOk_of_complete {i : Instr} {s : State} {v w : Word} (hs : s.faultCause = 0#8)
    (h : exec i s = .next (s.complete v statOk)) (hv : v = w) : AnswersOk i s w :=
  ⟨_, h, hv, rfl, hs⟩

theorem boolWord_decide (p : Prop) [Decidable p] : boolWord (decide p) = if p then 1#32 else 0#32 := by
  by_cases hp : p
  · simp [boolWord, hp]
  · simp [boolWord, hp]

/-- Settles O23: each comparison's word is 1 exactly when its relation on the raw values read as s32 holds. -/
theorem comparisonsFollowTheSignedOrder : Obligations.ComparisonsFollowTheSignedOrder := by
  intro a b s hs
  refine ⟨answersOk_of_complete hs (exec_fxeq hs a b) ?_, answersOk_of_complete hs (exec_fxne hs a b) ?_,
    answersOk_of_complete hs (exec_fxlt hs a b) rfl, answersOk_of_complete hs (exec_fxle hs a b) rfl,
    answersOk_of_complete hs (exec_fxgt hs a b) rfl, answersOk_of_complete hs (exec_fxge hs a b) rfl⟩
  · simp only [boolWord_decide, s32_inj]
  · simp only [boolWord_decide, s32_inj, ne_eq, ite_not]

end Sys2Proof.Machine
end

section
/-! SUPPORT. FXDIV by the quotient nearest to the exact one, ties away from zero (R105), and what dividing and
multiplying make of a raw value (R106, R118). -/

namespace Sys2Proof.Machine

/-! ## The rounded quotient -/

/-- The magnitude of the quotient R105 rounds to: half the divisor's magnitude added, rounded down. -/
def quotientMagnitude (n b : Int) : Nat := (n.natAbs + b.natAbs / 2) / b.natAbs

/-- The two inequalities that fix the magnitude. -/
theorem quotientMagnitude_spec (n : Int) {b : Int} (hb : b ≠ 0) :
    quotientMagnitude n b * b.natAbs ≤ n.natAbs + b.natAbs / 2 ∧
    n.natAbs + b.natAbs / 2 < quotientMagnitude n b * b.natAbs + b.natAbs :=
  ⟨Nat.div_mul_le_self _ _, Nat.lt_div_mul_add (Int.natAbs_pos.2 hb)⟩

theorem quotientMagnitude_zero_left {b : Int} (hb : b ≠ 0) : quotientMagnitude 0 b = 0 :=
  Nat.div_eq_of_lt (by omega)

/-- HALF_AWAY puts the sign of the exact quotient before that magnitude. -/
theorem divRound_halfAway_eq (n : Int) {b : Int} (hb : b ≠ 0) :
    divRound .halfAway n b = if n < 0 ↔ b < 0 then (quotientMagnitude n b : Int) else -quotientMagnitude n b := by
  obtain ⟨m, hm, hle, hlt, hq⟩ := divRound_halfAway_form n hb
  lift m to Nat using hm
  simp only [absInt_eq_natAbs] at hle hlt
  have hmag : quotientMagnitude n b = m := Nat.div_eq_of_lt_le (by exact_mod_cast hle) (by exact_mod_cast hlt)
  rw [hq, hmag]

/-- Multiplied back, the rounded quotient has the dividend's sign. -/
theorem divRound_halfAway_mul (n : Int) {b : Int} (hb : b ≠ 0) :
    divRound .halfAway n b * b =
      if n < 0 then -((quotientMagnitude n b * b.natAbs : Nat) : Int) else (quotientMagnitude n b * b.natAbs : Nat) := by
  rw [divRound_halfAway_eq n hb]
  rcases lt_or_gt_of_ne hb with hneg | hpos
  · have hB : (b.natAbs : Int) = -b := by omega
    by_cases hn : n < 0 <;> simp [hn, hneg, hB]
  · have hB : (b.natAbs : Int) = b := by omega
    by_cases hn : n < 0 <;> simp [hn, hpos.le, hB]

/-- R105: no integer multiple of the divisor is nearer to the dividend, and of two as near it is the one away from
zero. -/
theorem divRound_halfAway_nearest (n : Int) {b : Int} (hb : b ≠ 0) :
    2 * (divRound .halfAway n b * b - n).natAbs ≤ b.natAbs ∧
    (2 * (divRound .halfAway n b * b - n).natAbs = b.natAbs → n.natAbs < (divRound .halfAway n b * b).natAbs) := by
  obtain ⟨hle, hlt⟩ := quotientMagnitude_spec n hb
  rw [divRound_halfAway_mul n hb]
  generalize quotientMagnitude n b * b.natAbs = x at hle hlt
  by_cases hn : n < 0
  · simp only [hn, if_true]
    omega
  · simp only [hn, if_false]
    omega

theorem quotientMagnitude_neg (n b : Int) : quotientMagnitude (-n) (-b) = quotientMagnitude n b := by
  simp only [quotientMagnitude, Int.natAbs_neg]

/-- The source's formula with truncating division (R105), on a dividend and a divisor that are not negative. -/
theorem tdiv_eq_quotientMagnitude {n b : Int} (hn : 0 ≤ n) (hb : 0 < b) :
    Int.tdiv (n + Int.tdiv b 2) b = quotientMagnitude n b := by
  lift n to Nat using hn
  lift b to Nat using hb.le
  rfl

/-- For a dividend 0 or signs that agree the two branches of R105 agree. -/
theorem divRound_halfAway_eq_literal {n b : Int} (hb : b ≠ 0) (h : n = 0 ∨ (n < 0 ↔ b < 0)) :
    divRound .halfAway n b = Int.tdiv (n + Int.tdiv b 2) b := by
  have hmag : divRound .halfAway n b = quotientMagnitude n b := by
    rw [divRound_halfAway_eq n hb]
    rcases h with rfl | h
    · simp [quotientMagnitude_zero_left hb]
    · simp [h]
  rw [hmag]
  rcases lt_or_gt_of_ne hb with hneg | hpos
  · rw [← quotientMagnitude_neg, ← tdiv_eq_quotientMagnitude (by omega) (by omega), Int.neg_tdiv b 2, ← Int.neg_add,
      Int.neg_tdiv_neg]
  · exact (tdiv_eq_quotientMagnitude (by omega) hpos).symm

/-- Settles O21: the quotient nearest to the exact one by its magnitude's two inequalities, and the zero divisor's
fault. -/
theorem divideRoundsHalfAwayFromZero : Obligations.DivideRoundsHalfAwayFromZero := by
  intro a b s hs
  refine ⟨fun hb => ?_, ?_⟩
  · have hz : b.toInt ≠ 0 := s32_ne_zero hb
    obtain ⟨hnear, htie⟩ := divRound_halfAway_nearest (a.toInt * 2 ^ 29) hz
    refine ⟨_, divRound .halfAway (a.toInt * 2 ^ 29) b.toInt, exec_fxdiv_of_ne_zero hs a hb, rfl, hnear, htie,
      fun h => divRound_halfAway_eq_literal hz ?_, rfl, hs⟩
    rcases h with rfl | h
    · exact .inl (by decide)
    · exact .inr (by omega)
  · rintro rfl
    exact ⟨_, exec_fxdiv_zero hs a, rfl, rfl, rfl⟩

/-! ## The laws of the fixed-point operations -/

/-- The rounded product is the integer within half a raw unit of the exact one (R104). -/
theorem fxMul_eq {a b : Word} {r : Int} (h1 : r * 2 ^ 29 ≤ s32 a * s32 b + 2 ^ 28)
    (h2 : s32 a * s32 b + 2 ^ 28 < (r + 1) * 2 ^ 29) : fxMul a b = wrap32 r :=
  congrArg wrap32 (floorDiv_eq (d := fxScale) (by decide) h1 h2)

theorem fxMul_comm (a b : Word) : fxMul a b = fxMul b a := by
  rw [fxMul, fxMul, Int.mul_comm]

/-- 1.0 is the raw value 2^29 (R90). -/
theorem s32_one : s32 0x20000000#32 = 2 ^ 29 := by decide

theorem fxMul_one (a : Word) : fxMul a 0x20000000#32 = a := by
  have h : fxMul a 0x20000000#32 = wrap32 (s32 a) := fxMul_eq (by rw [s32_one]; omega) (by rw [s32_one]; omega)
  rw [h, wrap32_s32]

theorem fxDiv_one (a : Word) : fxDiv .halfAway a 0x20000000#32 = a := by
  obtain ⟨hnear, -⟩ := divRound_halfAway_nearest (s32 a * fxScale) (b := 2 ^ 29) (by decide)
  have hq : divRound .halfAway (s32 a * fxScale) (2 ^ 29) = s32 a := by
    simp only [fxScale] at *
    omega
  rw [fxDiv, s32_one, hq, wrap32_s32]

/-- Settles O26: the laws of addition by those of words, those of 1.0 by rounding, and two raw triples for the laws that
fail. -/
theorem arithmeticLaws : Obligations.ArithmeticLaws := by
  refine ⟨fun a b => ?_, fun a b c => ?_, fun a b => ?_, fxMul_comm, fun a => ⟨fxMul_one a, ?_⟩, fxDiv_one,
    ⟨1#32, 0x10000000#32, 0x10000000#32, by decide⟩, ⟨1#32, 0x10000000#32, 0x10000000#32, by decide⟩⟩
  · simp only [fxAdd_eq, BitVec.add_comm]
  · simp only [fxAdd_eq, BitVec.add_assoc]
  · rw [fxAdd_eq, fxSub_eq, fxSub_eq, BitVec.zero_sub, BitVec.sub_eq_add_neg]
  · rw [fxMul_comm, fxMul_one]

/-! ## Dividing and multiplying back -/

/-- R106: for a divisor of at most 1.0 in magnitude and a quotient that fits, multiplying back loses nothing. At 1.0 and
-1.0 the division is exact; below, the quotient's error times the divisor is less than half a raw unit. -/
theorem fxMul_fxDiv_cancel {a b : Word} (hb : b ≠ 0#32) (hone : (s32 b).natAbs ≤ 2 ^ 29)
    (hmin : -(2 ^ 31) ≤ divRound .halfAway (s32 a * 2 ^ 29) (s32 b))
    (hmax : divRound .halfAway (s32 a * 2 ^ 29) (s32 b) < 2 ^ 31) : fxMul (fxDiv .halfAway a b) b = a := by
  have hz : s32 b ≠ 0 := s32_ne_zero hb
  obtain ⟨hnear, -⟩ := divRound_halfAway_nearest (s32 a * 2 ^ 29) hz
  have hq : s32 (fxDiv .halfAway a b) = divRound .halfAway (s32 a * 2 ^ 29) (s32 b) :=
    s32_wrap32_of_fits hmin (Int.le_of_lt_add_one hmax)
  generalize divRound .halfAway (s32 a * 2 ^ 29) (s32 b) = q at hnear hq
  have hlt : q * s32 b + 2 ^ 28 < (s32 a + 1) * 2 ^ 29 := by
    rcases eq_or_ne (s32 b).natAbs (2 ^ 29) with hB | hB
    · obtain hB | hB : s32 b = 2 ^ 29 ∨ s32 b = -2 ^ 29 := by omega
      · rw [hB] at hnear ⊢
        omega
      · rw [hB] at hnear ⊢
        omega
    · omega
  have h : fxMul (fxDiv .halfAway a b) b = wrap32 (s32 a) := fxMul_eq (by rw [hq]; omega) (by rw [hq]; exact hlt)
  rw [h, wrap32_s32]

/-- Settles O27: up to 1.0 the raw value itself comes back; for 0x7FFFFFFF the raw value 2, whose quotient is rounded up
to 1 and comes back as 4. -/
theorem divideThenMultiplyComesBack : Obligations.DivideThenMultiplyComesBack := by
  refine ⟨fun a b s hs hb hone hmin hmax => ?_, 2#32, by decide⟩
  have ht : (s.complete (fxDiv Config.divMixedSign a b) statOk).faultCause = 0#8 := hs
  refine ⟨_, _, exec_fxdiv_of_ne_zero hs a hb, exec_fxmul ht _ b, ?_⟩
  have hback : fxMul (fxDiv Config.divMixedSign a b) b = a := fxMul_fxDiv_cancel hb hone hmin hmax
  simp [hback]

end Sys2Proof.Machine
end

section
/-! SUPPORT. The exact-integer product and quotient as 64-bit words compute them, and the bounds that keep every
intermediate from wrapping (R93). -/

namespace Sys2Proof.Machine

/-! ## Words of 64 bits -/

/-- Cutting 64 bits to 32 narrows the integer they hold (R92). -/
theorem setWidth_ofInt_64 (z : Int) : (BitVec.ofInt 64 z).setWidth 32 = wrap32 z := by
  apply BitVec.eq_of_toNat_eq
  simp only [wrap32, BitVec.toNat_setWidth, BitVec.toNat_ofInt]
  omega

theorem setWidth_64_eq (x : BitVec 64) : x.setWidth 32 = wrap32 x.toInt := by
  rw [← setWidth_ofInt_64, BitVec.ofInt_toInt]

/-- A result that fits 64 bits is the exact one. -/
theorem toInt_of_fits {x : BitVec 64} {z : Int} (hx : x = BitVec.ofInt 64 z) (h1 : -2 ^ 63 ≤ z) (h2 : z < 2 ^ 63) :
    x.toInt = z := by
  rw [hx]
  exact BitVec.toInt_ofInt_eq_self (by decide) h1 h2

theorem toInt_signExtend_64 (a : Word) : (a.signExtend 64).toInt = s32 a :=
  BitVec.toInt_signExtend_of_le (by decide)

theorem signExtend_64_eq (a : Word) : a.signExtend 64 = BitVec.ofInt 64 (s32 a) := by
  rw [← toInt_signExtend_64, BitVec.ofInt_toInt]

theorem toNat_abs_64 (x : BitVec 64) : x.abs.toNat = x.toInt.natAbs := by
  have hx : x.toNat < 2 ^ 64 := x.isLt
  rw [BitVec.toNat_abs, BitVec.toInt_eq_msb_cond]
  split
  · omega
  · omega

/-! ## The bounds of R93 -/

theorem natAbs_s32_le (a : Word) : (s32 a).natAbs ≤ 2 ^ 31 := by
  obtain ⟨h1, h2⟩ := s32_bounds a
  omega

theorem natAbs_product_le (a b : Word) : (s32 a * s32 b).natAbs ≤ 2 ^ 62 := by
  rw [Int.natAbs_mul]
  exact (Nat.mul_le_mul (natAbs_s32_le a) (natAbs_s32_le b)).trans (by decide)

theorem natAbs_dividend_le (a : Word) : (s32 a * 2 ^ 29).natAbs ≤ 2 ^ 60 := by
  have h := natAbs_s32_le a
  omega

/-- Rounding adds at most one to the dividend's magnitude. -/
theorem natAbs_divRound_halfAway_le (n : Int) {b : Int} (hb : b ≠ 0) :
    (divRound .halfAway n b).natAbs ≤ n.natAbs + 1 := by
  have hmag : (divRound .halfAway n b).natAbs = quotientMagnitude n b := by
    rw [divRound_halfAway_eq n hb]
    split
    · omega
    · omega
  have hB : 0 < b.natAbs := Int.natAbs_pos.2 hb
  calc (divRound .halfAway n b).natAbs
      = (n.natAbs + b.natAbs / 2) / b.natAbs := hmag
    _ ≤ (n.natAbs + b.natAbs) / b.natAbs := Nat.div_le_div_right (by omega)
    _ = n.natAbs / b.natAbs + 1 := Nat.add_div_right _ hB
    _ ≤ n.natAbs + 1 := Nat.succ_le_succ (Nat.div_le_self _ _)

/-! ## The 64-bit product and quotient -/

theorem fxMul_eq_fxMul64 (a b : Word) : fxMul a b = fxMul64 a b := by
  have hbound := natAbs_product_le a b
  have hsum : a.signExtend 64 * b.signExtend 64 + 0x10000000#64 = BitVec.ofInt 64 (s32 a * s32 b + fxHalf) := by
    rw [signExtend_64_eq, signExtend_64_eq, BitVec.ofInt_add, BitVec.ofInt_mul]
    rfl
  have hexact := toInt_of_fits hsum (by rw [fxHalf]; omega) (by rw [fxHalf]; omega)
  rw [fxMul64, setWidth_64_eq, BitVec.toInt_sshiftRight, hexact, Int.shiftRight_eq_div_pow, fxMul, floorDiv,
    Int.fdiv_eq_ediv_of_nonneg _ (by decide)]
  rfl

/-- The unsigned quotient of the magnitudes, when their sum does not wrap. -/
theorem quotient_64_eq {x d : BitVec 64} (hfit : x.toInt.natAbs + d.toInt.natAbs / 2 < 2 ^ 64) :
    (x.abs + d.abs >>> 1) / d.abs = BitVec.ofInt 64 (quotientMagnitude x.toInt d.toInt) := by
  apply BitVec.eq_of_toNat_eq
  have hmag : quotientMagnitude x.toInt d.toInt < 2 ^ 64 := (Nat.div_le_self _ _).trans_lt hfit
  rw [BitVec.ofInt_natCast, BitVec.toNat_ofNat, Nat.mod_eq_of_lt hmag, BitVec.toNat_udiv, BitVec.toNat_add,
    BitVec.toNat_ushiftRight, toNat_abs_64, toNat_abs_64, Nat.shiftRight_eq_div_pow, Nat.pow_one,
    Nat.mod_eq_of_lt hfit, quotientMagnitude]

/-- The 64-bit quotient with its sign put back is HALF_AWAY's. -/
theorem signed_quotient_64_eq {x d : BitVec 64} (hd : d.toInt ≠ 0)
    (hfit : x.toInt.natAbs + d.toInt.natAbs / 2 < 2 ^ 64) :
    (if x.msb == d.msb then (x.abs + d.abs >>> 1) / d.abs else -((x.abs + d.abs >>> 1) / d.abs)) =
      BitVec.ofInt 64 (divRound .halfAway x.toInt d.toInt) := by
  have hsign : (x.msb == d.msb) = true ↔ (x.toInt < 0 ↔ d.toInt < 0) := by
    rw [BitVec.msb_eq_toInt, BitVec.msb_eq_toInt, beq_iff_eq, decide_eq_decide]
  rw [quotient_64_eq hfit, divRound_halfAway_eq _ hd, ← BitVec.ofInt_neg]
  simp only [hsign]
  split
  · rfl
  · rfl

theorem fxDiv_eq_fxDiv64 (a : Word) {b : Word} (hb : b ≠ 0#32) : fxDiv .halfAway a b = fxDiv64 a b := by
  have hN := natAbs_dividend_le a
  have hB := natAbs_s32_le b
  have hshift : a.signExtend 64 <<< 29 = BitVec.ofInt 64 (s32 a * 2 ^ 29) := by
    rw [BitVec.shiftLeft_eq_mul_twoPow, signExtend_64_eq, BitVec.ofInt_mul]
    rfl
  have hn : (a.signExtend 64 <<< 29).toInt = s32 a * 2 ^ 29 := toInt_of_fits hshift (by omega) (by omega)
  have hd := toInt_signExtend_64 b
  have hz : s32 b ≠ 0 := s32_ne_zero hb
  have hq := signed_quotient_64_eq (x := a.signExtend 64 <<< 29) (d := b.signExtend 64) (by rwa [hd])
    (by rw [hn, hd]; omega)
  rw [hn, hd] at hq
  exact (setWidth_ofInt_64 _).symm.trans (congrArg (BitVec.setWidth 32) hq.symm)

/-- Settles O24: each 64-bit intermediate is within its bound, so it is the exact integer of the rule. -/
theorem exactRulesEqualSixtyFourBitArithmetic : Obligations.ExactRulesEqualSixtyFourBitArithmetic := by
  intro a b
  have hprod := natAbs_product_le a b
  have hdividend := natAbs_dividend_le a
  have hdivisor := natAbs_s32_le b
  simp only [s32] at hprod hdividend hdivisor
  refine ⟨fxMul_eq_fxMul64 a b, hprod, by omega, fun hb => ?_⟩
  have hz : b.toInt ≠ 0 := s32_ne_zero hb
  have hquot := natAbs_divRound_halfAway_le (a.toInt * 2 ^ 29) hz
  exact ⟨fxDiv_eq_fxDiv64 a hb, hdividend, by omega, by omega⟩

end Sys2Proof.Machine
end

section
/-! SUPPORT. The Manchester codec by its symbols: the two polarities of encode (R131, R132, R137), the answer of decode
on a legal pattern and on one with a framing violation (R139, R143, R144), and decode after encode (R142). -/

namespace Sys2Proof.Machine

/-! ## Encode -/

/-- Normal polarity: the symbol of a source bit is the bit and, above it, its complement (R131). -/
theorem manEnc_normal_symbol {w : Nat} (p : BitVec w) (hw : w ≤ 16) {i : Nat} (hi : i < w) :
    (manEnc p false).getLsbD (2 * i) = p.getLsbD i ∧ (manEnc p false).getLsbD (2 * i + 1) = !p.getLsbD i := by
  rw [manEnc_getLsbD_even p _ hi hw, manEnc_getLsbD_odd p _ hi hw, Bool.xor_false]
  exact ⟨rfl, rfl⟩

/-- Inverted polarity: the two bits of a symbol change places (R131). -/
theorem manEnc_inverted_symbol {w : Nat} (p : BitVec w) (hw : w ≤ 16) {i : Nat} (hi : i < w) :
    (manEnc p true).getLsbD (2 * i) = !p.getLsbD i ∧ (manEnc p true).getLsbD (2 * i + 1) = p.getLsbD i := by
  rw [manEnc_getLsbD_even p _ hi hw, manEnc_getLsbD_odd p _ hi hw, Bool.xor_true, Bool.not_not]
  exact ⟨rfl, rfl⟩

/-- Settles O28: the symbols of each polarity, and the ones above them. -/
theorem encodePlacesEverySymbol : Obligations.EncodePlacesEverySymbol := by
  refine ⟨fun p s hs => ⟨⟨_, exec_menc8 hs p, rfl, hs, ?_, ?_⟩, ⟨_, exec_menc8i hs p, rfl, hs, ?_, ?_⟩⟩,
    fun p s hs => ⟨⟨_, exec_menc16 hs p, rfl, hs, ?_⟩, ⟨_, exec_menc16i hs p, rfl, hs, ?_⟩⟩⟩
  · exact fun _ => manEnc_normal_symbol p (by decide)
  · exact fun _ => manEnc_getLsbD_above p false
  · exact fun _ => manEnc_inverted_symbol p (by decide)
  · exact fun _ => manEnc_getLsbD_above p true
  · exact fun _ => manEnc_normal_symbol p le_rfl
  · exact fun _ => manEnc_inverted_symbol p le_rfl

/-- A word is an encoded pattern when it holds its symbols and the idle ones above them (R132). -/
theorem eq_manEnc {w : Nat} {p : BitVec w} {inv : Bool} {x : Word} (hw : w ≤ 16)
    (hsym : ∀ i < w, x.getLsbD (2 * i) = (p.getLsbD i ^^ inv) ∧ x.getLsbD (2 * i + 1) = !(p.getLsbD i ^^ inv))
    (hidle : ∀ j, 2 * w ≤ j → j < 32 → x.getLsbD j = true) : x = manEnc p inv := by
  refine BitVec.eq_of_getLsbD_eq fun j hj => ?_
  by_cases hjw : 2 * w ≤ j
  · rw [hidle j hjw hj, manEnc_getLsbD_above p inv hjw hj]
  · obtain ⟨heven, hodd⟩ := hsym (j / 2) (by omega)
    obtain h | h : j = 2 * (j / 2) ∨ j = 2 * (j / 2) + 1 := by omega
    · rw [h, heven, manEnc_getLsbD_even p inv (by omega) hw]
    · rw [h, hodd, manEnc_getLsbD_odd p inv (by omega) hw]

/-- R137: inverted polarity is normal polarity on the complemented payload. -/
theorem manEnc_inverted_eq_not {w : Nat} (p : BitVec w) (hw : w ≤ 16) : manEnc p true = manEnc (~~~p) false := by
  refine eq_manEnc hw (fun i hi => ?_) (fun j => manEnc_getLsbD_above p true)
  simp [manEnc_inverted_symbol p hw hi, hi]

/-- R137: inverted polarity complements the `2 w` significant bits. -/
theorem manEnc_inverted_eq_xor {w : Nat} (p : BitVec w) (hw : w ≤ 16) :
    manEnc p true = manEnc p false ^^^ (BitVec.allOnes (2 * w)).setWidth 32 := by
  refine (eq_manEnc hw (fun i hi => ?_) (fun j hj hj32 => ?_)).symm
  · rw [BitVec.getLsbD_xor, BitVec.getLsbD_xor, (manEnc_normal_symbol p hw hi).1, (manEnc_normal_symbol p hw hi).2]
    simp [show 2 * i < 32 by omega, show 2 * i + 1 < 32 by omega, show 2 * i + 1 < 2 * w by omega, hi]
  · simp [manEnc_getLsbD_above p false hj hj32, show ¬ j < 2 * w by omega]

/-- R137: the payload can be read off its pattern. -/
theorem manEnc_injective {w : Nat} {p q : BitVec w} {inv : Bool} (hw : w ≤ 16) (h : manEnc p inv = manEnc q inv) :
    p = q := by
  refine BitVec.eq_of_getLsbD_eq fun i hi => ?_
  have hbit : (p.getLsbD i ^^ inv) = (q.getLsbD i ^^ inv) := by
    rw [← manEnc_getLsbD_even p inv hi hw, ← manEnc_getLsbD_even q inv hi hw, h]
  exact Bool.xor_left_inj.1 hbit

/-- Settles O30: each law at the two widths. -/
theorem encodeLaws : Obligations.EncodeLaws :=
  ⟨fun p => ⟨manEnc_inverted_eq_xor p (by decide), manEnc_inverted_eq_not p (by decide)⟩,
    fun p => ⟨manEnc_inverted_eq_xor p le_rfl, manEnc_inverted_eq_not p le_rfl⟩,
    fun _ _ _ => manEnc_injective (by decide), fun _ _ _ => manEnc_injective le_rfl⟩

/-! ## Decode -/

/-- R143: the answer to a pattern with a framing violation. -/
theorem zext32_manDec_of_illegal {w n : Nat} {p : BitVec n}
    (h : ∃ i, i < w ∧ p.getLsbD (2 * i) = p.getLsbD (2 * i + 1)) : zext32 (manDec w p) = 0x0000FFFF#32 := by
  rw [manDec, decLoop_of_illegal p w _ h]
  rfl

/-- R139: the answer to a legal pattern, at every bit. -/
theorem zext32_manDec_getLsbD {w n : Nat} {p : BitVec n} (hw : w ≤ 16)
    (h : ∀ i, i < w → p.getLsbD (2 * i) ≠ p.getLsbD (2 * i + 1)) (j : Nat) :
    (zext32 (manDec w p)).getLsbD j = (decide (j < w) && p.getLsbD (2 * j)) := by
  rw [zext32, BitVec.getLsbD_setWidth]
  by_cases hj : j < 16
  · rw [manDec, decLoop_getLsbD p w _ hw h j hj]
    by_cases hjw : j < w
    · simp [hjw, show j < 32 by omega]
    · simp [hjw]
  · simp [BitVec.getLsbD_of_ge _ j (Nat.le_of_not_lt hj), show ¬ j < w by omega]

/-- Settles O29: the marker for a framing violation, else every bit of the payload. -/
theorem decodeReadsEverySymbol : Obligations.DecodeReadsEverySymbol :=
  ⟨fun p _ hs => ⟨_, exec_mdec8 hs p, rfl, hs, zext32_manDec_of_illegal, zext32_manDec_getLsbD (by decide)⟩,
    fun p _ hs => ⟨_, exec_mdec16 hs p, rfl, hs, zext32_manDec_of_illegal, zext32_manDec_getLsbD le_rfl⟩⟩

/-- A legal pattern that answers the marker has 16 symbols, all of them `01` (R144). -/
theorem symbols_of_legal_marker {w n : Nat} {p : BitVec n} (hw : w ≤ 16)
    (hlegal : ∀ i, i < w → p.getLsbD (2 * i) ≠ p.getLsbD (2 * i + 1)) (h : zext32 (manDec w p) = 0x0000FFFF#32)
    {i : Nat} (hi : i < 16) : i < w ∧ p.getLsbD (2 * i) = true ∧ p.getLsbD (2 * i + 1) = false := by
  have hones : ∀ i < 16, (0x0000FFFF#32).getLsbD i = true := by decide
  have hbit := zext32_manDec_getLsbD hw hlegal i
  rw [h, hones i hi, eq_comm, Bool.and_eq_true, decide_eq_true_eq] at hbit
  obtain ⟨hiw, heven⟩ := hbit
  have hodd := hlegal i hiw
  rw [heven, ne_comm] at hodd
  exact ⟨hiw, heven, Bool.eq_false_iff.2 hodd⟩

/-- R144, width 8: no payload is the marker, since its bit 15 is 0. -/
theorem zext32_manDec8_eq_marker_iff {n : Nat} (p : BitVec n) :
    zext32 (manDec 8 p) = 0x0000FFFF#32 ↔ ∃ i, i < 8 ∧ p.getLsbD (2 * i) = p.getLsbD (2 * i + 1) := by
  refine ⟨fun h => ?_, zext32_manDec_of_illegal⟩
  by_contra hlegal
  push Not at hlegal
  exact absurd (symbols_of_legal_marker (by decide) hlegal h (i := 15) (by decide)).1 (by decide)

/-- R144, width 16: the payload 0xFFFF is the marker, and its pattern is the one with every symbol `01`. -/
theorem zext32_manDec16_eq_marker_iff (p : Word) :
    zext32 (manDec 16 p) = 0x0000FFFF#32 ↔
      (p = 0x55555555#32 ∨ ∃ i, i < 16 ∧ p.getLsbD (2 * i) = p.getLsbD (2 * i + 1)) := by
  constructor
  · intro h
    by_contra hnot
    push Not at hnot
    obtain ⟨hp, hlegal⟩ := hnot
    have hsym := fun i (hi : i < 16) => (symbols_of_legal_marker le_rfl hlegal h hi).2
    have hpattern : manEnc 0xFFFF#16 false = 0x55555555#32 := by decide
    have hones : ∀ i < 16, (0xFFFF#16).getLsbD i = true := by decide
    refine hp ((eq_manEnc le_rfl (fun i hi => ?_) (fun j _ _ => by omega)).trans hpattern)
    simp [hsym i hi, hones i hi]
  · rintro (rfl | h)
    · decide
    · exact zext32_manDec_of_illegal h

/-- Settles O32: a completed decode writes RES and STAT only, and its marker is told apart at each width. -/
theorem markerIsTheSoleErrorSignal : Obligations.MarkerIsTheSoleErrorSignal :=
  ⟨fun p _ hs => ⟨_, exec_mdec8 hs p, rfl, ⟨rfl, rfl⟩, zext32_manDec8_eq_marker_iff p⟩,
    fun p _ hs => ⟨_, exec_mdec16 hs p, rfl, ⟨rfl, rfl⟩, zext32_manDec16_eq_marker_iff p⟩⟩

/-! ## Decode after encode -/

/-- A pattern that holds the symbols of a payload decodes to it, whatever stands above them (R139). -/
theorem zext32_manDec_of_symbols {w n : Nat} {p : BitVec w} {q : BitVec n} (hw : w ≤ 16)
    (hsym : ∀ i < w, q.getLsbD (2 * i) = p.getLsbD i ∧ q.getLsbD (2 * i + 1) = !p.getLsbD i) :
    zext32 (manDec w q) = p.setWidth 32 := by
  have hlegal : ∀ i, i < w → q.getLsbD (2 * i) ≠ q.getLsbD (2 * i + 1) := fun i hi => by simp [hsym i hi]
  refine BitVec.eq_of_getLsbD_eq fun j hj => ?_
  rw [zext32_manDec_getLsbD hw hlegal, BitVec.getLsbD_setWidth]
  by_cases hjw : j < w
  · rw [(hsym j hjw).1]
    simp [hjw, hj]
  · simp [BitVec.getLsbD_of_ge p j (Nat.le_of_not_lt hjw), hjw]

/-- R142: decode gives back the payload of a pattern in normal polarity, from as many low bits of it as it reads. -/
theorem zext32_manDec_manEnc {w n : Nat} (p : BitVec w) (hw : w ≤ 16) (hn : 2 * w ≤ n) :
    zext32 (manDec w ((manEnc p false).setWidth n)) = p.setWidth 32 := by
  refine zext32_manDec_of_symbols hw fun i hi => ?_
  simp [manEnc_normal_symbol p hw hi, show 2 * i < n by omega, show 2 * i + 1 < n by omega]

/-- The caller's complement of an inverted pattern has the significant bits of the normal one (R142). -/
theorem setWidth_complement_manEnc8 (p : BitVec 8) :
    (manEnc p true ^^^ 0xFFFFFFFF#32).setWidth 16 = (manEnc p false).setWidth 16 := by
  rw [manEnc_inverted_eq_xor p (by decide), BitVec.xor_assoc, BitVec.setWidth_xor]
  exact BitVec.xor_zero

theorem complement_manEnc16 (p : BitVec 16) : manEnc p true ^^^ 0xFFFFFFFF#32 = manEnc p false := by
  rw [manEnc_inverted_eq_xor p le_rfl, BitVec.xor_assoc]
  exact BitVec.xor_zero

/-- R142, width 16. -/
theorem zext32_manDec16_manEnc (p : BitVec 16) : zext32 (manDec 16 (manEnc p false)) = p.setWidth 32 := by
  simpa using zext32_manDec_manEnc (n := 32) p le_rfl le_rfl

/-- R142, width 8, where decode reads the low half of the word. -/
theorem zext32_manDec8_manEnc (p : BitVec 8) :
    zext32 (manDec 8 ((manEnc p false).setWidth 16)) = p.setWidth 32 :=
  zext32_manDec_manEnc p (by decide) le_rfl

/-- Settles O31: every pattern decoded is the normal one of the payload or of its complement. -/
theorem manchesterRoundTrip : Obligations.ManchesterRoundTrip := by
  have hrun : ∀ {s : State} {v : Word}, s.faultCause = 0#8 → (s.complete v statOk).faultCause = 0#8 :=
    (complete_faultCause _ _ _).trans
  refine ⟨fun p s hs => ⟨⟨_, _, exec_menc16 hs p, exec_mdec16 (hrun hs) _, ?_⟩,
      ⟨_, _, exec_menc16i hs p, exec_mdec16 (hrun hs) _, ?_⟩,
      ⟨_, _, exec_menc16i hs p, exec_mdec16 (hrun hs) _, ?_⟩⟩,
    fun p s hs => ⟨⟨_, _, exec_menc8 hs p, exec_mdec8 (hrun hs) _, ?_⟩,
      ⟨_, _, exec_menc8i hs p, exec_mdec8 (hrun hs) _, ?_⟩,
      ⟨_, _, exec_menc8i hs p, exec_mdec8 (hrun hs) _, ?_⟩⟩⟩
  · exact zext32_manDec16_manEnc p
  · simp only [complete_res, complement_manEnc16, zext32_manDec16_manEnc]
  · simp only [complete_res, manEnc_inverted_eq_not p le_rfl, zext32_manDec16_manEnc]
  · exact zext32_manDec8_manEnc p
  · simp only [complete_res, setWidth_complement_manEnc8, zext32_manDec8_manEnc]
  · simp only [complete_res, manEnc_inverted_eq_not p (by decide), zext32_manDec8_manEnc]

end Sys2Proof.Machine
end

section
/-! SUPPORT. What each LAMP command leaves behind, on an active unit and after teardown (R160 to R175). -/

namespace Sys2Proof.Machine

theorem zext32_toNat {w : Nat} (hw : w ≤ 32) (v : BitVec w) : (zext32 v).toNat = v.toNat :=
  BitVec.toNat_setWidth_of_le hw

/-! ## The conversions -/

/-- The clamp of R153 is reached only above every native level. -/
theorem driver2dali_toNat_eq_min (d : Nat) : (driver2dali d).toNat = min (16 * d) 65535 := by
  rw [driver2dali_toNat]
  omega

theorem driver2dali_native_toNat (d : Native) : (driver2dali d.toNat).toNat = 16 * d.toNat := by
  have hd : d.toNat < 4096 := d.isLt
  rw [driver2dali_toNat_eq_min]
  omega

/-- A level through the native domain and back is its nearest multiple of 16, ties up (R154). -/
theorem driver2dali_dali2driver_toNat (v : Level) :
    (driver2dali (dali2driver v).toNat).toNat = min ((v.toNat + 8) / 16 * 16) 65520 := by
  rw [driver2dali_native_toNat, dali2driver_toNat]
  omega

/-- Settles O44: from the conversions as numbers. -/
theorem conversionLaws : Obligations.ConversionLaws := by
  refine ⟨by decide, by decide, by decide, by decide, driver2dali_toNat_eq_min, dali2driver_driver2dali, fun v => ?_⟩
  have hv : v.toNat < 65536 := v.isLt
  rw [driver2dali_dali2driver_toNat]
  omega

/-- Settles O43: each command answers its conversion, zero-extended. -/
theorem conversionCommandsAnswer : Obligations.ConversionCommandsAnswer := by
  refine fun s hs ha => ⟨fun v => ⟨_, exec_ld2n hs ha v, ?_, by simp [statOk]⟩,
    fun d => ⟨_, exec_ln2d hs ha d, ?_, by simp [statOk]⟩⟩
  · rw [complete_res, zext32_toNat (by decide), dali2driver_toNat]
  · rw [complete_res, zext32_toNat (by decide), driver2dali_toNat]

/-! ## Level and fade -/

/-- Settles O35: the engine's setLevel, a snap for time 0 and otherwise a fade. -/
theorem setLevelCommandsTheEngine : Obligations.SetLevelCommandsTheEngine := by
  intro l t s hs ha
  refine ⟨_, exec_lsetlevel hs ha l t, ?_⟩
  by_cases ht : t = 0#32
  · subst ht
    simp [setLevel_zero, dali2driver_toNat, statOk]
  · simp [setLevel_of_ne_zero ht, ht, dali2driver_toNat, statOk]

/-- During a fade LGETLEVEL answers the live level (R151). -/
theorem exec_lgetlevel_fading {s : State} (hs : s.faultCause = 0#8) (ha : s.lifecycle = .active)
    (hf : s.eng.fading = true) :
    exec .lgetlevel s = .next (s.complete (zext32 (driver2dali s.eng.level.toNat)) statOk) := by
  rw [exec_lgetlevel hs ha, Engine.isFading, hf]
  rfl

/-- With no fade LGETLEVEL answers the commanded level (R151). -/
theorem exec_lgetlevel_idle {s : State} (hs : s.faultCause = 0#8) (ha : s.lifecycle = .active)
    (hf : s.eng.fading = false) : exec .lgetlevel s = .next (s.complete (zext32 s.mLevel) statOk) := by
  rw [exec_lgetlevel hs ha, Engine.isFading, hf]
  rfl

/-- Settles O36: the level by whether the engine fades, and its flag as a word. -/
theorem lampQueriesReadTheVisibleState : Obligations.LampQueriesReadTheVisibleState := by
  refine fun s hs ha => ⟨?_, _, exec_lisfading hs ha, rfl, by simp [statOk]⟩
  cases hf : s.eng.fading with
  | true =>
    refine ⟨_, exec_lgetlevel_fading hs ha hf, fun _ => ?_, nofun, by simp [statOk]⟩
    rw [complete_res, zext32_toNat (by decide), driver2dali_toNat]
  | false =>
    exact ⟨_, exec_lgetlevel_idle hs ha hf, nofun, fun _ => zext32_toNat (by decide) s.mLevel, by simp [statOk]⟩

/-- Settles O37: LABORT by whether the engine fades. -/
theorem abortFreezesTheLiveLevel : Obligations.AbortFreezesTheLiveLevel := by
  intro s hs ha
  cases hf : s.eng.fading with
  | true => exact ⟨_, exec_labort_fading hs ha hf, by simp [abortFading_of_fading hf, driver2dali_toNat, statOk]⟩
  | false => exact ⟨_, exec_labort_idle hs ha hf, by simp [statOk]⟩

/-- Settles O39: LWAITFADE by whether the engine fades. -/
theorem waitFadeHoldsOrCompletes : Obligations.WaitFadeHoldsOrCompletes := by
  refine fun s hs ha => ⟨fun hf => ?_, exec_lwaitfade_fading hs ha⟩
  exact ⟨_, exec_lwaitfade_idle hs ha hf, by simp [statOk]⟩

/-! ## Colour, observers, teardown -/

/-- Settles O40: the engine's setColor, by whether it starts a fade. -/
theorem setColorStoresAndForwards : Obligations.SetColorStoresAndForwards := by
  intro r g b t s hs ha
  refine ⟨_, exec_lsetcolor hs ha r g b t, by simp, by simp, by simp, by simp, by simp [statOk], fun hstay => ?_,
    fun ht hf hopen => ?_, by simp⟩
  · have hno : ¬ (t ≠ 0#32 ∧ Config.colorFadeSetsFading = true ∧ s.eng.fading = false) := by
      rintro ⟨ht, hopen, hf⟩
      simp [ht, hopen, hf] at hstay
    exact if_neg hno
  · exact if_pos ⟨ht, hopen, hf⟩

/-- Settles O41: an empty slot is found, or the table is full. -/
theorem registerTakesTheLeastEmptySlot : Obligations.RegisterTakesTheLeastEmptySlot := by
  intro id s hs ha
  cases hr : registerSlot id s.slots with
  | some ss =>
    refine ⟨_, exec_lregister_of_some hs ha hr, rfl, fun before after x heq hb hx => ?_, fun hfull => ?_, by simp⟩
    · rw [heq, registerSlot_of_first_empty hb hx] at hr
      cases hr
      exact ⟨rfl, rfl⟩
    · rw [registerSlot_of_full hfull] at hr
      cases hr
  | none =>
    refine ⟨_, exec_lregister_of_none hs ha hr, rfl, fun before after x heq hb hx => ?_, fun _ => ⟨rfl, rfl⟩, by simp⟩
    rw [heq, registerSlot_of_first_empty hb hx] at hr
    cases hr

/-- Settles O42: a matching slot is found, or there is none. -/
theorem unregisterEmptiesTheLeastMatchingSlot : Obligations.UnregisterEmptiesTheLeastMatchingSlot := by
  intro id s hs ha
  cases hr : unregisterSlot id s.slots with
  | some ss =>
    refine ⟨_, exec_lunregister_of_some hs ha hr, rfl, fun before after heq hb => ?_, fun hnone => ?_, by simp⟩
    · rw [heq, unregisterSlot_of_first_match hb] at hr
      cases hr
      exact ⟨rfl, rfl⟩
    · rw [unregisterSlot_of_no_match hnone] at hr
      cases hr
  | none =>
    refine ⟨_, exec_lunregister_of_none hs ha hr, rfl, fun before after heq hb => ?_, fun _ => ⟨rfl, rfl⟩, by simp⟩
    rw [heq, unregisterSlot_of_first_match hb] at hr
    cases hr

/-- Settles O45: the engine is off whatever its other fields hold. -/
theorem teardownDisablesTheEngine : Obligations.TeardownDisablesTheEngine :=
  fun _ hs ha => ⟨_, exec_lteardown hs ha, rfl, by simp [statOk]⟩

/-- Settles O15: the LAMP range faults, and a pure command completes unless it divides by zero. -/
theorem lampCommandsFaultAfterTeardown : Obligations.LampCommandsFaultAfterTeardown := by
  refine fun i s hs ht => ⟨fun hl => ⟨_, exec_lamp_tornDown hl hs ht, rfl, rfl, by simp⟩, fun hl hz => ?_⟩
  rcases exec_pure hl with ⟨v, hv⟩ | ⟨a, hi, -⟩
  · exact ⟨_, hv s hs, rfl, by simp⟩
  · exact absurd hi (hz a)

end Sys2Proof.Machine
end

section
/-! SUPPORT. How long a fade still runs (R220), and what LGETLEVEL and LISFADING answer once it is over. -/

namespace Sys2Proof.Machine

/-- Within `n` more engine time steps the engine stands still at the level `l`, whatever levels it draws: it does so
already, or its fade heads for `l` and asks for at most `n` more steps. -/
def Engine.StillWithin (l : Native) (n : Nat) (e : Engine) : Prop :=
  (e.fading = false ∧ e.level = l) ∨
  (e.enabled = true ∧ e.fading = true ∧ e.target = l ∧ 0 < n ∧ Config.fadeSteps e.duration ≤ e.elapsed + n)

theorem Engine.StillWithin.idle {l : Native} {e : Engine} (h : e.StillWithin l 0) : e.fading = false ∧ e.level = l := by
  rcases h with hidle | ⟨-, -, -, hn, -⟩
  · exact hidle
  · exact absurd hn (Nat.lt_irrefl 0)

theorem Engine.StillWithin.mono {l : Native} {m n : Nat} {e : Engine} (h : e.StillWithin l m) (hmn : m ≤ n) :
    e.StillWithin l n := by
  rcases h with hidle | ⟨he, hf, hl, hm, hleft⟩
  · exact .inl hidle
  · exact .inr ⟨he, hf, hl, by omega, by omega⟩

/-- An engine that is on stands still within FADE_STEPS (R220), after a fade at the fade's target. -/
theorem exists_stillWithin {e : Engine} (he : e.enabled = true) :
    ∃ l, e.StillWithin l (Config.fadeSteps e.duration) ∧ (e.fading = true → l = e.target) := by
  cases hf : e.fading with
  | true => exact ⟨e.target, .inr ⟨he, hf, rfl, fadeSteps_pos _, Nat.le_add_left _ _⟩, fun _ => rfl⟩
  | false => exact ⟨e.level, .inl ⟨hf, rfl⟩, nofun⟩

/-- After setLevel the engine stands at the level within FADE_STEPS of the fade time, which a snap does at once. -/
theorem stillWithin_setLevel {e : Engine} (he : e.enabled = true) (l : Native) (t : Word) :
    (e.setLevel l t).StillWithin l (Config.fadeSteps t) := by
  by_cases ht : t = 0#32
  · rw [ht, setLevel_zero]
    exact .inl ⟨rfl, rfl⟩
  · rw [setLevel_of_ne_zero ht]
    exact .inr ⟨he, rfl, rfl, fadeSteps_pos t, Nat.le_add_left _ _⟩

/-- A time step uses up one of the steps left. -/
theorem Engine.StillWithin.timeStep {l : Native} {n : Nat} {e : Engine} (h : e.StillWithin l n) (live : Native) :
    (e.timeStep live).StillWithin l (n - 1) := by
  rcases h with ⟨hf, hl⟩ | ⟨he, hf, hl, hn, hleft⟩
  · rw [timeStep_of_idle hf]
    exact .inl ⟨hf, hl⟩
  rcases timeStep_cases live e with ⟨hoff, -⟩ | ⟨-, -, -, heq⟩ | ⟨-, -, hmore, heq⟩
  · simp [he, hf] at hoff
  · rw [heq]
    exact .inl ⟨rfl, hl⟩
  · rw [heq]
    exact .inr ⟨he, hf, hl, by omega, show Config.fadeSteps e.duration ≤ e.elapsed + 1 + (n - 1) by omega⟩

/-- As many time steps as are left bring the engine to its level. -/
theorem Engine.StillWithin.foldl {l : Native} {draws : List Native} {e : Engine} (h : e.StillWithin l draws.length) :
    (draws.foldl (fun x live => x.timeStep live) e).StillWithin l 0 := by
  induction draws generalizing e with
  | nil => exact h
  | cons live rest ih => exact ih (h.timeStep live)

/-- Settles O38: the aborted engine stands still at the level it had. -/
theorem noDriftAfterAbort : Obligations.NoDriftAfterAbort := by
  intro s t draws hs ha hf h
  rw [exec_labort_fading hs ha hf] at h
  cases h
  have hstill : s.eng.abortFading.StillWithin s.eng.level draws.length := by
    rw [abortFading_of_fading hf]
    exact .inl ⟨rfl, rfl⟩
  obtain ⟨hidle, -⟩ := hstill.foldl.idle
  exact ⟨_, exec_lgetlevel_idle hs ha hidle,
    (zext32_toNat (by decide) _).trans (driver2dali_native_toNat s.eng.level)⟩

/-- Settles O55: after the fade's steps the engine is idle, and an idle engine shows the commanded level. -/
theorem finishedFadeShowsTheCommandedLevel : Obligations.FinishedFadeShowsTheCommandedLevel := by
  intro l u s t draws hs ha he h hsteps
  rw [exec_lsetlevel hs ha] at h
  cases h
  have hstill := (stillWithin_setLevel he (dali2driver l) u).mono hsteps
  obtain ⟨hidle, -⟩ := hstill.foldl.idle
  refine ⟨⟨_, exec_lgetlevel_idle hs ha hidle, zext32_toNat (by decide) l⟩, ⟨_, exec_lisfading hs ha, ?_⟩⟩
  exact congrArg boolWord hidle

end Sys2Proof.Machine
end

section
/-! SUPPORT. An LWAITFADE that waits for the end of a fade, under any schedule of the agents without reset (R164, R240). -/

namespace Sys2Proof.Machine

/-- What an LWAITFADE will find when it completes: the engine's level, mLevel, the host's index at the command, and the
host's commands after it. -/
structure Wait where
  level : Native
  mLevel : Level
  index : Nat
  rest : List Command

/-- The command waits at the host's index of a running, active block, and its fade is over within `n` engine steps. -/
def Wait.OnIn (w : Wait) (n : Nat) (s : State) : Prop :=
  s.faultCause = 0#8 ∧ s.lifecycle = .active ∧ (∃ k, s.pending = k :: w.rest ∧ decode k = .ok .lwaitfade) ∧
    s.index = w.index ∧ s.mLevel = w.mLevel ∧ s.eng.StillWithin w.level n

/-- The command has completed, and the fade is over. -/
def Wait.OverIn (w : Wait) (s : State) : Prop :=
  s.pending = w.rest ∧ s.index = w.index + 1 ∧ s.res = 0#32 ∧ s.stat = 0#8 ∧ s.eng.fading = false ∧
    s.eng.level = w.level ∧ s.mLevel = w.mLevel ∧ s.faultCause = 0#8

variable {w : Wait} {n : Nat} {s : State}

/-! ## One step -/

/-- Once the fade is over the host's turn completes the command. -/
theorem Wait.OnIn.hostTurn_of_idle (h : w.OnIn n s) (hf : s.eng.fading = false) :
    ∃ t, hostTurn s = .next t ∧ t.turns = s.turns ∧ w.OverIn t := by
  obtain ⟨hs, ha, ⟨k, hp, hd⟩, hi, hm, hidle | ⟨-, hfading, -⟩⟩ := h
  · refine ⟨_, (hostTurn_of_decode_ok hp hd).trans (exec_lwaitfade_idle hs ha hf), rfl, ?_⟩
    simp [Wait.OverIn, hp, hi, hm, hs, hidle, statOk]
  · rw [hf] at hfading
    cases hfading

/-- While the fade goes on the host's turn leaves the command waiting. -/
theorem Wait.OnIn.hostTurn_of_fading (h : w.OnIn n s) (hf : s.eng.fading = true) : hostTurn s = .next s.hold := by
  obtain ⟨hs, ha, ⟨k, hp, hd⟩, -⟩ := h
  exact (hostTurn_of_decode_ok hp hd).trans (exec_lwaitfade_fading hs ha hf)

/-- An engine time step brings the end of the fade one step nearer. -/
theorem Wait.OnIn.timeStep (h : w.OnIn n s) (live : Native) : w.OnIn (n - 1) (s.setEngine (s.eng.timeStep live)) := by
  obtain ⟨hs, ha, hp, hi, hm, hstill⟩ := h
  exact ⟨hs, ha, hp, hi, hm, hstill.timeStep live⟩

/-- Whichever turn comes but reset, the command completes or waits on, nearer its end by an engine's step (R240). -/
theorem Wait.OnIn.takeTurn (h : w.OnIn n s) {x : Turn} (hx : x ≠ .reset) :
    ∃ t, takeTurn x s = .next t ∧ t.turns = s.turns ∧ (w.OnIn (n - engineStepsIn [x]) t ∨ w.OverIn t) := by
  cases x with
  | host =>
    cases hf : s.eng.fading with
    | true => exact ⟨_, h.hostTurn_of_fading hf, rfl, .inl h⟩
    | false =>
      obtain ⟨t, ht, hturns, hover⟩ := h.hostTurn_of_idle hf
      exact ⟨t, ht, hturns, .inr hover⟩
  | engineStep live => exact ⟨_, rfl, rfl, .inl (h.timeStep live)⟩
  | engineEvent e => exact ⟨_, rfl, by simp, .inl (by simpa [Wait.OnIn, engineStepsIn] using h)⟩
  | reset => exact absurd rfl hx

/-- When the waiting command was the host's last, no turn but reset undoes its completion. -/
theorem Wait.OverIn.takeTurn (h : w.OverIn s) (hw : w.rest = []) {x : Turn} (hx : x ≠ .reset) :
    ∃ t, takeTurn x s = .next t ∧ t.turns = s.turns ∧ w.OverIn t := by
  have ⟨hp, _, _, _, hf, _⟩ := h
  cases x with
  | host => exact ⟨s, hostTurn_of_no_command (hp.trans hw), rfl, h⟩
  | engineStep live => exact ⟨_, rfl, rfl, by rw [timeStep_of_idle hf]; exact h⟩
  | engineEvent e => exact ⟨_, rfl, by simp, by simpa [Wait.OverIn] using h⟩
  | reset => exact absurd rfl hx

/-! ## A listed schedule -/

theorem engineStepsIn_cons (x : Turn) (xs : List Turn) :
    engineStepsIn (x :: xs) = engineStepsIn xs + engineStepsIn [x] := by
  cases x <;> rfl

/-- A listed turn leaves the list and takes its agent's step. -/
theorem run_succ_of_turn {x : Turn} {xs : List Turn} {t : State} (m : Nat) (hturns : s.turns = x :: xs)
    (ht : takeTurn x { s with turns := xs } = .next t) : core.run (m + 1) s = core.run m t :=
  run_succ ((step_of_turn hturns).trans ht)

/-- A completion of the host's last command lasts through every schedule without reset. -/
theorem Wait.OverIn.run (hw : w.rest = []) {ts : List Turn} (hreset : Turn.reset ∉ ts) (h : w.OverIn s)
    (hturns : s.turns = ts) : ∃ t, core.run ts.length s = .next t ∧ w.OverIn t := by
  induction ts generalizing s with
  | nil => exact ⟨s, rfl, h⟩
  | cons x xs ih =>
    obtain ⟨hx, hxs⟩ := not_or.1 (mt List.mem_cons.2 hreset)
    obtain ⟨t, ht, htturns, hover⟩ := Wait.OverIn.takeTurn (s := { s with turns := xs }) h hw (Ne.symm hx)
    rw [List.length_cons, run_succ_of_turn _ hturns ht]
    exact ih hxs hover htturns

/-- After a schedule with the engine steps that are left, the host's turn finds its last command completed. -/
theorem Wait.OnIn.run_schedule (hw : w.rest = []) {ts : List Turn} (hreset : Turn.reset ∉ ts)
    (h : w.OnIn (engineStepsIn ts) s) (hturns : s.turns = ts ++ [.host]) :
    ∃ t, core.run (ts.length + 1) s = .next t ∧ w.OverIn t := by
  induction ts generalizing s with
  | nil =>
    have ⟨_, _, _, _, _, hstill⟩ := h
    obtain ⟨hidle, -⟩ := hstill.idle
    obtain ⟨t, ht, -, hover⟩ := Wait.OnIn.hostTurn_of_idle (s := { s with turns := [] }) h hidle
    exact ⟨t, run_succ_of_turn 0 hturns ht, hover⟩
  | cons x xs ih =>
    obtain ⟨hx, hxs⟩ := not_or.1 (mt List.mem_cons.2 hreset)
    obtain ⟨t, ht, htturns, hon | hover⟩ := Wait.OnIn.takeTurn (s := { s with turns := xs ++ [.host] }) h (Ne.symm hx)
    · rw [List.length_cons, run_succ_of_turn _ hturns ht]
      rw [engineStepsIn_cons, Nat.add_sub_cancel] at hon
      exact ih hxs hon htturns
    · have hlast : Turn.reset ∉ xs ++ [.host] := by simpa using hxs
      rw [List.length_cons, run_succ_of_turn _ hturns ht]
      simpa using hover.run hw hlast htturns

/-! ## After the listed turns -/

/-- With no turn listed the engine runs the fade to its end, and then the host's turn completes the command (log 17). -/
theorem Wait.OnIn.run_unlisted (h : w.OnIn n s) (hturns : s.turns = []) :
    ∃ m t, m ≤ n + 1 ∧ core.run m s = .next t ∧ w.OverIn t := by
  induction n using Nat.strong_induction_on generalizing s with | _ n ih
  have ⟨_, _, _, _, _, hstill⟩ := h
  rcases hstill with ⟨hf, -⟩ | ⟨he, hf, -, hn, -⟩
  · obtain ⟨t, ht, -, hover⟩ := h.hostTurn_of_idle hf
    exact ⟨1, t, by omega, run_succ ((step_of_idle hturns (.inr hf)).trans ht), hover⟩
  · have hstep := step_of_fading hturns he hf
    have hon := Wait.OnIn.timeStep (s := { s with draws := s.draws + 1 }) h (Config.liveLevel s.draws)
    obtain ⟨m, t, hm, hrun, hover⟩ := ih (n - 1) (by omega) hon hturns
    exact ⟨m + 1, t, by omega, (run_succ hstep).trans hrun, hover⟩

/-- Whatever is listed but reset, the command completes within the listed turns, the steps the fade asks for, and one. -/
theorem Wait.OnIn.run_listed {ts : List Turn} (hreset : Turn.reset ∉ ts) (h : w.OnIn n s) (hturns : s.turns = ts) :
    ∃ m t, m ≤ ts.length + n + 1 ∧ core.run m s = .next t ∧ w.OverIn t := by
  induction ts generalizing n s with
  | nil => simpa using h.run_unlisted hturns
  | cons x xs ih =>
    obtain ⟨hx, hxs⟩ := not_or.1 (mt List.mem_cons.2 hreset)
    obtain ⟨t, ht, htturns, hon | hover⟩ := Wait.OnIn.takeTurn (s := { s with turns := xs }) h (Ne.symm hx)
    · obtain ⟨m, u, hm, hrun, hover⟩ := ih hxs hon htturns
      exact ⟨m + 1, u, by rw [List.length_cons]; omega, (run_succ_of_turn m hturns ht).trans hrun, hover⟩
    · exact ⟨1, t, by omega, run_succ_of_turn 0 hturns ht, hover⟩

/-- Settles O56: the fade's level and FADE_STEPS, followed through the listed turns and past them. -/
theorem waitFadeCompletesUnderEverySchedule : Obligations.WaitFadeCompletesUnderEverySchedule := by
  refine ⟨fun s k ts hs ha he hf hp hd hreset hturns hleft hpos => ?_, fun s k ks hs ha he hp hd hreset => ?_⟩
  · have hon : Wait.OnIn ⟨s.eng.target, s.mLevel, s.index, []⟩ (engineStepsIn ts) s :=
      ⟨hs, ha, ⟨k, hp, hd⟩, rfl, rfl, .inr ⟨he, hf, rfl, hpos, hleft⟩⟩
    exact hon.run_schedule rfl hreset hturns
  · obtain ⟨l, hstill, hl⟩ := exists_stillWithin he
    have hon : Wait.OnIn ⟨l, s.mLevel, s.index, ks⟩ (Config.fadeSteps s.eng.duration) s :=
      ⟨hs, ha, ⟨k, hp, hd⟩, rfl, rfl, hstill⟩
    obtain ⟨n, t, hn, hrun, hpending, hindex, hres, hstat, hidle, hlevel, hkept⟩ := hon.run_listed hreset rfl
    exact ⟨n, t, hn, hrun, hpending, hindex, hres, hstat, hidle, fun hf => hlevel.trans (hl hf), hkept⟩

end Sys2Proof.Machine
end

section
/-! SUPPORT. What a fault leaves behind (R204, R207), what an event's dispatch does (R212), and which commands hold
(R203, R240). -/

namespace Sys2Proof.Machine

/-! ## The state after a fault -/

/-- A command on a running block raises a fault and does nothing else, or leaves the block running (R201, R204). -/
theorem exec_raises_or_runs {i : Instr} {s t : State} (hs : s.faultCause = 0#8) (h : exec i s = .next t) :
    (∃ c w, t = s.raiseFault c w) ∨ t.faultCause = 0#8 := by
  rcases exec_running_cases hs h with ⟨-, v, rfl⟩ | ⟨a, -, rfl⟩ | ⟨-, -, rfl⟩ | ⟨-, -, -, rfl⟩ |
    ⟨-, -, u, v, c, hu, rfl, -⟩
  · exact .inr hs
  · exact .inl ⟨_, _, rfl⟩
  · exact .inl ⟨_, _, rfl⟩
  · exact .inr hs
  · obtain ⟨-, -, hcause, -⟩ := hu.frame
    exact .inr (hcause.trans hs)

/-- Settles O14: a command that leaves the block faulted has raised the fault and done nothing else. -/
theorem faultsArePrecise : Obligations.FaultsArePrecise := by
  intro i s t hs h ht
  rcases exec_raises_or_runs hs h with ⟨c, w, rfl⟩ | hrun
  · simp
  · exact absurd hrun ht

/-- Settles O22: on a running block a zero divisor raises the fault and does nothing else. -/
theorem divideByZeroRaisesDivZero : Obligations.DivideByZeroRaisesDivZero :=
  fun a _ hs => ⟨_, exec_fxdiv_zero hs a, rfl, rfl, by simp⟩

/-! ## The dispatch of an event -/

theorem dispatch_of_active {s : State} (hs : s.faultCause = 0#8) (ha : s.lifecycle = .active) (e : Byte) :
    s.dispatch e = { s with notify := s.notify ++ noticesFor e s.slots } :=
  if_pos ⟨(faulted_eq_false_iff s).2 hs, ha⟩

theorem dispatch_of_faulted {s : State} (hs : s.faultCause ≠ 0#8) (e : Byte) : s.dispatch e = s :=
  if_neg fun ⟨hrun, _⟩ => hs ((faulted_eq_false_iff s).1 hrun)

theorem dispatch_of_tornDown {s : State} (ht : s.lifecycle = .tornDown) (e : Byte) : s.dispatch e = s :=
  if_neg (by simp [ht])

/-- Settles O47: the three cases of the dispatch. -/
theorem eventsNotifyEveryObserverInSlotOrder : Obligations.EventsNotifyEveryObserverInSlotOrder := by
  refine fun s e => ⟨fun hs ha => dispatch_of_active hs ha e, ?_⟩
  rintro (hs | ht)
  · exact dispatch_of_faulted hs e
  · exact dispatch_of_tornDown ht e

/-! ## Which commands hold -/

theorem holdingExplained_of_not_holding {s : State} (h : s.holding = false) : HoldingExplained s := by
  simp [HoldingExplained, h]

theorem HoldingExplained.congr {s t : State} (hs : HoldingExplained s) (hh : t.holding = s.holding)
    (hp : t.pending = s.pending) (hc : t.faultCause = s.faultCause) : HoldingExplained t := by
  simpa only [HoldingExplained, State.faulted, hh, hp, hc] using hs

/-- A holding command at the index of a faulted block is explained (R203). -/
theorem holdingExplained_hold_of_faulted {s : State} {k : Command} {ks : List Command} (hp : s.pending = k :: ks)
    (hs : s.faultCause ≠ 0#8) : HoldingExplained s.hold :=
  fun _ => ⟨k, by simp [hp], .inl ((faulted_eq_true_iff s.hold).2 hs)⟩

/-- A holding LWAITFADE at the index is explained (R240). -/
theorem holdingExplained_hold_of_lwaitfade {s : State} {k : Command} {ks : List Command} (hp : s.pending = k :: ks)
    (hd : decode k = .ok .lwaitfade) : HoldingExplained s.hold :=
  fun _ => ⟨k, by simp [hp], .inr hd⟩

/-- The host's turn moves past its command, or that command holds at a faulted block or as LWAITFADE. -/
theorem hostTurn_keeps_holdingExplained {s t : State} (hs : HoldingExplained s) (h : hostTurn s = .next t) :
    HoldingExplained t := by
  rcases hostTurn_cases h with ⟨-, rfl⟩ | ⟨k, ks, hp, hk⟩
  · exact hs
  by_cases hc : s.faultCause = 0#8
  · rcases hk with ⟨i, hd, hx⟩ | ⟨r, -, rfl⟩
    · rcases exec_moves_or_holds hc hx with ⟨⟨-, hmoved, -⟩, -⟩ | ⟨rfl, -, -, rfl⟩
      · exact holdingExplained_of_not_holding hmoved
      · exact holdingExplained_hold_of_lwaitfade hp hd
    · rw [illegalCommand_of_running hc]
      exact holdingExplained_of_not_holding rfl
  · rcases hostTurn_of_faulted hc h with rfl | rfl
    · exact hs
    · exact holdingExplained_hold_of_faulted hp hc

/-- Settles O59: only the host's turn sets the mark, and reset clears it. -/
theorem stepKeepsHoldingExplained : Obligations.StepKeepsHoldingExplained := by
  intro s t hs h
  rcases step_cases h with ⟨-, hh⟩ | ⟨live, -, rfl⟩ | ⟨e, -, rfl⟩ | ⟨-, rfl⟩
  · exact hostTurn_keeps_holdingExplained (s := s.turnTaken) hs hh
  · exact hs
  · exact hs.congr (by simp) (by simp) (by simp)
  · exact holdingExplained_of_not_holding rfl

end Sys2Proof.Machine
end

section
/-! SUPPORT. Runs: a fault lasts until reset and marks its run for good (R205, R250), and every fade ends (R220). -/

namespace Sys2Proof.Machine

/-! ## A step uses up its turn -/

theorem exec_turns {i : Instr} {s t : State} (h : exec i s = .next t) : t.turns = s.turns := by
  by_cases hs : s.faultCause = 0#8
  · rcases exec_running_cases hs h with ⟨-, v, rfl⟩ | ⟨a, -, rfl⟩ | ⟨-, -, rfl⟩ | ⟨-, -, -, rfl⟩ |
      ⟨-, -, u, v, c, hu, rfl, -⟩
    · rfl
    · rfl
    · rfl
    · rfl
    · obtain ⟨-, -, -, -, -, hturns, -⟩ := hu.frame
      exact hturns
  · rw [exec_of_faulted hs] at h
    cases h
    rfl

theorem illegalCommand_turns (w : Word) (s : State) : (illegalCommand w s).turns = s.turns := by
  by_cases hs : s.faultCause = 0#8
  · simp [illegalCommand_of_running hs]
  · simp [illegalCommand, whenRunning_of_faulted hs]

theorem hostTurn_turns {s t : State} (h : hostTurn s = .next t) : t.turns = s.turns := by
  rcases hostTurn_cases h with ⟨-, rfl⟩ | ⟨k, ks, -, ⟨i, -, hx⟩ | ⟨r, -, rfl⟩⟩
  · rfl
  · exact exec_turns hx
  · exact illegalCommand_turns k.cmd s

/-- Every step, whosever it is, takes one turn off the list and puts none on it (log 1). -/
theorem step_turns {s t : State} (h : step s = .next t) : t.turns = s.turns.tail := by
  rcases step_cases h with ⟨-, hh⟩ | ⟨live, -, rfl⟩ | ⟨e, -, rfl⟩ | ⟨-, rfl⟩
  · exact hostTurn_turns (s := s.turnTaken) hh
  · rfl
  · simp
  · rfl

/-- Reset comes only where it is listed. -/
theorem nextTurn_ne_reset {s : State} (h : Turn.reset ∉ s.turns) : s.nextTurn ≠ .reset := by
  cases hturns : s.turns with
  | nil =>
    rw [State.nextTurn, hturns]
    cases hr : s.eng.ready <;> simp
  | cons x xs =>
    rw [nextTurn_of_cons hturns]
    rintro rfl
    exact h (by simp [hturns])

/-! ## A faulted run -/

/-- Without a reset the stopped block stays as it is, step after step. -/
theorem run_of_faulted {n : Nat} {s t : State} (hs : s.faultCause ≠ 0#8) (hreset : Turn.reset ∉ s.turns)
    (h : core.run n s = .next t) :
    SameBlock s t ∧ t.notify = s.notify ∧ t.pending = s.pending ∧ t.index = s.index := by
  induction n generalizing s with
  | zero =>
    cases h
    simp
  | succ n ih =>
    obtain ⟨u, hu⟩ := step_next s
    obtain ⟨-, hstep⟩ := faultedBlockIsStoppedUntilReset
    obtain ⟨hstopped, -⟩ := hstep s u hs hu
    obtain ⟨⟨hresult, ⟨hcause, hcmd⟩, hlamp⟩, hnotify, hpending, hindex, -⟩ := hstopped (nextTurn_ne_reset hreset)
    have hlater : Turn.reset ∉ u.turns := fun hm => hreset (List.mem_of_mem_tail (step_turns hu ▸ hm))
    rw [run_succ hu] at h
    simpa only [SameBlock, SameResult, SameFaultRecord, SameLamp, SameColour, hresult, hcause, hcmd, hlamp, hnotify,
      hpending, hindex] using ih (hcause ▸ hs) hlater h

/-- A fault within `n + 1` steps stands in the first state, or comes within `n` steps of the next one. -/
theorem faultedWithin_succ_iff {n : Nat} {s t : State} (h : step s = .next t) :
    FaultedWithin (n + 1) s ↔ s.faultCause ≠ 0#8 ∨ FaultedWithin n t := by
  simp only [FaultedWithin, h]

/-- A fault in the first state counts at every length of the run (log 22). -/
theorem faultedWithin_of_faulted {s : State} (hs : s.faultCause ≠ 0#8) : ∀ n, FaultedWithin n s
  | 0 => hs
  | _ + 1 => .inl hs

theorem FaultedWithin.mono {m n : Nat} {s : State} (h : FaultedWithin m s) (hmn : m ≤ n) : FaultedWithin n s := by
  induction m generalizing n s with
  | zero => exact faultedWithin_of_faulted h n
  | succ m ih =>
    obtain ⟨n, rfl⟩ := Nat.exists_eq_add_of_le' hmn
    obtain ⟨t, ht⟩ := step_next s
    rcases (faultedWithin_succ_iff ht).1 h with hs | hlater
    · exact faultedWithin_of_faulted hs _
    · exact (faultedWithin_succ_iff ht).2 (.inr (ih hlater (Nat.le_add_left m n)))

/-- Settles O11: a stopped block stays stopped, and a longer run keeps the faults of a shorter one. -/
theorem faultedRunStaysFaulted : Obligations.FaultedRunStaysFaulted := by
  refine ⟨fun n s t hs hreset h => ?_, fun m n s h hmn => ?_⟩
  · have hsame := run_of_faulted hs hreset h
    have ⟨⟨_, ⟨hcause, _⟩, _⟩, _⟩ := hsame
    exact ⟨hcause ▸ hs, hsame⟩
  · have hfaulted := FaultedWithin.mono h hmn
    exact ⟨hfaulted, fun ⟨hnormal, _⟩ => hnormal hfaulted⟩

/-! ## Every fade ends -/

/-- With no turn listed the engine runs its fade to the end (log 17). -/
theorem run_unlisted_fade_ends {l : Native} {n : Nat} {s : State} (h : s.eng.StillWithin l n) (hturns : s.turns = []) :
    ∃ m t, core.run m s = .next t ∧ t.eng.fading = false := by
  induction n generalizing s with
  | zero =>
    obtain ⟨hidle, -⟩ := h.idle
    exact ⟨0, s, rfl, hidle⟩
  | succ n ih =>
    have hnext : (s.eng.timeStep (Config.liveLevel s.draws)).StillWithin l n := h.timeStep _
    rcases h with ⟨hidle, -⟩ | ⟨he, hf, -⟩
    · exact ⟨0, s, rfl, hidle⟩
    · have hstep := step_of_fading hturns he hf
      obtain ⟨m, t, hrun, hend⟩ := ih (s := { s with draws := s.draws + 1 }.setEngine _) hnext hturns
      exact ⟨m + 1, t, (run_succ hstep).trans hrun, hend⟩

/-- Whatever turns are listed, a run uses them up and then comes to the end of the fade in progress. -/
theorem run_comes_to_no_fade {ts : List Turn} {s : State} (hturns : s.turns = ts) :
    ∃ n t, core.run n s = .next t ∧ (t.eng.enabled = false ∨ t.eng.fading = false) := by
  induction ts generalizing s with
  | nil =>
    cases he : s.eng.enabled with
    | false => exact ⟨0, s, rfl, .inl he⟩
    | true =>
      obtain ⟨l, hstill, -⟩ := exists_stillWithin he
      obtain ⟨n, t, hrun, hidle⟩ := run_unlisted_fade_ends hstill hturns
      exact ⟨n, t, hrun, .inr hidle⟩
  | cons x xs ih =>
    obtain ⟨u, hu⟩ := step_next s
    obtain ⟨n, t, hrun, hend⟩ := ih ((step_turns hu).trans (congrArg List.tail hturns))
    exact ⟨n + 1, t, (run_succ hu).trans hrun, hend⟩

/-- Settles O54: the fade's last step stands it at its target, and the engine's steps come once the listed turns are
over. -/
theorem fadeEndsAtItsTarget : Obligations.FadeEndsAtItsTarget := by
  refine ⟨fun e draws he hf hsteps hne => ?_, fun s => run_comes_to_no_fade rfl⟩
  have hstill : e.StillWithin e.target draws.length := .inr ⟨he, hf, rfl, List.length_pos_iff.2 hne, hsteps⟩
  exact hstill.foldl.idle

end Sys2Proof.Machine
end

section
/-! SUPPORT. What the reset step constructs, whatever state it finds (R231, R232). -/

namespace Sys2Proof.Machine

/-- R33: a table of `N_CLIENTS` slots becomes the reset table. -/
theorem resetStep_slots_eq_reset {s : State} (h : s.slots.length = Config.nClients) :
    s.resetStep.slots = State.reset.slots := by
  calc s.resetStep.slots
    _ = s.slots.map fun _ => Slot.empty := resetStep_slots s
    _ = List.replicate s.slots.length Slot.empty := List.map_const' ..
    _ = State.reset.slots := by rw [h, State.reset]

/-- Settles O49: the construction sequence ends with the reset engine whatever it began with, the slots become empty
ones, and each other register is written. -/
theorem resetConstructsFromAnyState : Obligations.ResetConstructsFromAnyState := by
  intro s
  have heng : s.resetStep.eng = State.reset.eng := (resetStep_eng s).trans (construct_eq_reset s.eng)
  have hout : SameOutside s s.resetStep := ⟨resetStep_notify s, resetStep_turns s, resetStep_draws s⟩
  exact ⟨⟨resetStep_res s, resetStep_stat s⟩, ⟨resetStep_faultCause s, resetStep_faultCmd s⟩, resetStep_lifecycle s,
    resetStep_mLevel s, resetStep_colR s, resetStep_colG s, resetStep_colB s, resetStep_slots s, heng, hout,
    resetStep_slots_eq_reset⟩

end Sys2Proof.Machine
end
